-- ==== Sys2Proof/Word.lean ====
section
/-! DEFINITION. The word types of the CHIP-8 core (spec/10_state.md, spec/30_encoding.md R61). -/

namespace Sys2Proof

/-- A byte: a general register, a timer, a memory cell, the immediate `KK` (R10, R18, R23, R61). -/
abbrev Byte := BitVec 8

/-- A 16-bit word: `pc`, `I`, a call-stack entry, an opcode word (R12, R13, R16, R60). -/
abbrev Word := BitVec 16

/-- A 4-bit field: the register indices `X` and `Y`, the row count `N`, the top nibble, a key code (R34, R61). -/
abbrev Nibble := BitVec 4

/-- The 12-bit immediate `NNN`, a memory address (R61, R63). -/
abbrev Addr12 := BitVec 12

end Sys2Proof
end

