-- ==== Sys2Proof/Syntax.lean ====
section
/-! DEFINITION. The instruction set: one constructor per row of the opcode table (spec/30_encoding.md R65), with the
operand fields of its format (R61, R62). The names are those of the assembler forms of R78. -/

namespace Sys2Proof

/-- The 35 instructions of R65, in the order of the table. -/
inductive Instr where
  /-- 00E0, R150. -/
  | cls
  /-- 00EE, R101. -/
  | ret
  /-- 0NNN, R100. -/
  | sys (nnn : Addr12)
  /-- 1NNN, R102. -/
  | jp (nnn : Addr12)
  /-- 2NNN, R103. -/
  | call (nnn : Addr12)
  /-- 3XKK, R110. -/
  | seImm (x : Nibble) (kk : Byte)
  /-- 4XKK, R111. -/
  | sneImm (x : Nibble) (kk : Byte)
  /-- 5XY0, R112. -/
  | seReg (x y : Nibble)
  /-- 6XKK, R120. -/
  | ldImm (x : Nibble) (kk : Byte)
  /-- 7XKK, R121. -/
  | addImm (x : Nibble) (kk : Byte)
  /-- 8XY0, R122. -/
  | ldReg (x y : Nibble)
  /-- 8XY1, R123. -/
  | orReg (x y : Nibble)
  /-- 8XY2, R124. -/
  | andReg (x y : Nibble)
  /-- 8XY3, R125. -/
  | xorReg (x y : Nibble)
  /-- 8XY4, R126. -/
  | addReg (x y : Nibble)
  /-- 8XY5, R127. -/
  | subReg (x y : Nibble)
  /-- 8XY6, R128; `y` is the ignored field (R73). -/
  | shr (x y : Nibble)
  /-- 8XY7, R129. -/
  | subnReg (x y : Nibble)
  /-- 8XYE, R130; `y` is the ignored field (R73). -/
  | shl (x y : Nibble)
  /-- 9XY0, R113. -/
  | sneReg (x y : Nibble)
  /-- ANNN, R140. -/
  | ldI (nnn : Addr12)
  /-- BNNN, R104. -/
  | jpV0 (nnn : Addr12)
  /-- CXKK, R131. -/
  | rnd (x : Nibble) (kk : Byte)
  /-- DXYN, R151. -/
  | drw (x y n : Nibble)
  /-- EX9E, R160. -/
  | skp (x : Nibble)
  /-- EXA1, R161. -/
  | sknp (x : Nibble)
  /-- FX07, R170. -/
  | ldFromDt (x : Nibble)
  /-- FX0A, R162. -/
  | ldKey (x : Nibble)
  /-- FX15, R171. -/
  | ldToDt (x : Nibble)
  /-- FX18, R172. -/
  | ldToSt (x : Nibble)
  /-- FX1E, R141. -/
  | addI (x : Nibble)
  /-- FX29, R142. -/
  | ldGlyph (x : Nibble)
  /-- FX33, R143. -/
  | storeBcd (x : Nibble)
  /-- FX55, R144. -/
  | storeRegs (x : Nibble)
  /-- FX65, R145. -/
  | loadRegs (x : Nibble)
  deriving DecidableEq, Repr

end Sys2Proof
end

