-- ==== Sys2Proof/WellFormed.lean ====
section
/-! DEFINITION. Which terms of `Instr` are instructions of the machine. The fields' types hold every range check of R61, so
one check is left: the words 0x00E0 and 0x00EE are rows 1 and 2 of the table, not 0NNN (spec/30_encoding.md R64, R71). -/

namespace Sys2Proof

/-- `i` is the reading of some opcode word: 0NNN takes every `NNN` but 0x0E0 and 0x0EE (R71, R100). -/
def Instr.wellFormed : Instr → Bool
  | .sys nnn => nnn != 0x0E0#12 && nnn != 0x0EE#12
  | .cls | .ret | .jp _ | .call _ | .seImm _ _ | .sneImm _ _ | .seReg _ _ | .ldImm _ _ | .addImm _ _ | .ldReg _ _ => true
  | .orReg _ _ | .andReg _ _ | .xorReg _ _ | .addReg _ _ | .subReg _ _ | .shr _ _ | .subnReg _ _ | .shl _ _ => true
  | .sneReg _ _ | .ldI _ | .jpV0 _ | .rnd _ _ | .drw _ _ _ | .skp _ | .sknp _ | .ldFromDt _ | .ldKey _ | .ldToDt _ => true
  | .ldToSt _ | .addI _ | .ldGlyph _ | .storeBcd _ | .storeRegs _ | .loadRegs _ => true

end Sys2Proof
end

