-- ==== Sys2Proof/Decode.lean ====
section
/-! DEFINITION. The decoder (spec/30_encoding.md R60 to R65, R70 to R73): from the two bytes of an instruction to one of 36
outcomes, the 35 instructions or a rejection by name; after it the encoder, written from the same table. -/

namespace Sys2Proof

/-- Why the decoder rejects an opcode word. -/
inductive DecodeError where
  /-- `w` matches no row of the opcode table (R72). -/
  | unassigned (w : Word)
  deriving DecidableEq, Repr

/-- The opcode word of the two fetched bytes: the first is bits 15:8 (R44, R60). -/
def wordOfBytes (hi lo : Byte) : Word := hi ++ lo

/-- The two bytes of an opcode word in the order memory holds them: bits 15:8 first (R44). -/
def bytesOfWord (w : Word) : Byte × Byte := (w.extractLsb' 8 8, w.extractLsb' 0 8)

/-- `OP`, bits 15:12 (R61). -/
def fieldOp (w : Word) : Nibble := w.extractLsb' 12 4

/-- `X`, bits 11:8 (R61). -/
def fieldX (w : Word) : Nibble := w.extractLsb' 8 4

/-- `Y`, bits 7:4 (R61). -/
def fieldY (w : Word) : Nibble := w.extractLsb' 4 4

/-- `N`, bits 3:0 (R61). -/
def fieldN (w : Word) : Nibble := w.extractLsb' 0 4

/-- `KK`, bits 7:0 (R61). -/
def fieldKK (w : Word) : Byte := w.extractLsb' 0 8

/-- `NNN`, bits 11:0 (R61). -/
def fieldNNN (w : Word) : Addr12 := w.extractLsb' 0 12

/-- Second level for `OP` = 0x0, on the low 12 bits: 0x0E0 and 0x0EE take precedence over 0NNN (R64). -/
def decodeZero (nnn : Addr12) : Instr :=
  if nnn = 0x0E0#12 then .cls else if nnn = 0x0EE#12 then .ret else .sys nnn

/-- Second level for `OP` = 0x8, on the low nibble (R64, R65 rows 11 to 19). -/
def decodeAlu (x y n : Nibble) : Option Instr :=
  if n = 0x0#4 then some (.ldReg x y)
  else if n = 0x1#4 then some (.orReg x y)
  else if n = 0x2#4 then some (.andReg x y)
  else if n = 0x3#4 then some (.xorReg x y)
  else if n = 0x4#4 then some (.addReg x y)
  else if n = 0x5#4 then some (.subReg x y)
  else if n = 0x6#4 then some (.shr x y)
  else if n = 0x7#4 then some (.subnReg x y)
  else if n = 0xE#4 then some (.shl x y)
  else none

/-- Second level for `OP` = 0xE, on the low byte (R64, R65 rows 25 and 26). -/
def decodeKey (x : Nibble) (kk : Byte) : Option Instr :=
  if kk = 0x9E#8 then some (.skp x) else if kk = 0xA1#8 then some (.sknp x) else none

/-- Second level for `OP` = 0xF, on the low byte (R64, R65 rows 27 to 35). -/
def decodeMisc (x : Nibble) (kk : Byte) : Option Instr :=
  if kk = 0x07#8 then some (.ldFromDt x)
  else if kk = 0x0A#8 then some (.ldKey x)
  else if kk = 0x15#8 then some (.ldToDt x)
  else if kk = 0x18#8 then some (.ldToSt x)
  else if kk = 0x1E#8 then some (.addI x)
  else if kk = 0x29#8 then some (.ldGlyph x)
  else if kk = 0x33#8 then some (.storeBcd x)
  else if kk = 0x55#8 then some (.storeRegs x)
  else if kk = 0x65#8 then some (.loadRegs x)
  else none

/-- Second level for `OP` = 0x5 and 0x9: only `N` = 0 is assigned (R72).
DESIGN CHOICE (log entry 6): decision D6, where the spec lets a model refuse instead. unsafe. -/
def decodeIfZero (n : Nibble) (i : Instr) : Option Instr :=
  if n = 0x0#4 then some i else none

/-- The instruction an opcode word is, or none where no row of R65 matches: the two-level dispatch of R64. -/
def decodeFields (w : Word) : Option Instr :=
  let x := fieldX w
  let y := fieldY w
  let n := fieldN w
  let kk := fieldKK w
  let nnn := fieldNNN w
  match (fieldOp w).toNat with
  | 0x0 => some (decodeZero nnn)
  | 0x1 => some (.jp nnn)
  | 0x2 => some (.call nnn)
  | 0x3 => some (.seImm x kk)
  | 0x4 => some (.sneImm x kk)
  | 0x5 => decodeIfZero n (.seReg x y)
  | 0x6 => some (.ldImm x kk)
  | 0x7 => some (.addImm x kk)
  | 0x8 => decodeAlu x y n
  | 0x9 => decodeIfZero n (.sneReg x y)
  | 0xA => some (.ldI nnn)
  | 0xB => some (.jpV0 nnn)
  | 0xC => some (.rnd x kk)
  | 0xD => some (.drw x y n)
  | 0xE => decodeKey x kk
  | _ => decodeMisc x kk

/-- The decoder on an opcode word: total, one of 36 outcomes (R70). -/
def decodeWord (w : Word) : Except DecodeError Instr :=
  match decodeFields w with
  | some i => .ok i
  | none => .error (.unassigned w)

/-- The decoder on the two bytes of an instruction, the byte at `pc` first: "pure function of the two input bytes" (R70). -/
def decode (hi lo : Byte) : Except DecodeError Instr := decodeWord (wordOfBytes hi lo)

/-- Format NNN: `OP` and a 12-bit immediate (R62). -/
def wordNNN (op : Nibble) (nnn : Addr12) : Word := op ++ nnn

/-- Formats XKK and Xkk: `OP`, a register and a byte, operand or fixed selector (R62). -/
def wordXKK (op x : Nibble) (kk : Byte) : Word := op ++ (x ++ kk)

/-- Formats XYn and XYN: `OP`, two registers and a low nibble, fixed selector or row count (R62). -/
def wordXYN (op x y n : Nibble) : Word := op ++ (x ++ (y ++ n))

/-- The opcode word of an instruction, from the patterns of R65. -/
def encodeWord : Instr → Word
  | .cls => 0x00E0#16
  | .ret => 0x00EE#16
  | .sys nnn => wordNNN 0x0 nnn
  | .jp nnn => wordNNN 0x1 nnn
  | .call nnn => wordNNN 0x2 nnn
  | .seImm x kk => wordXKK 0x3 x kk
  | .sneImm x kk => wordXKK 0x4 x kk
  | .seReg x y => wordXYN 0x5 x y 0x0
  | .ldImm x kk => wordXKK 0x6 x kk
  | .addImm x kk => wordXKK 0x7 x kk
  | .ldReg x y => wordXYN 0x8 x y 0x0
  | .orReg x y => wordXYN 0x8 x y 0x1
  | .andReg x y => wordXYN 0x8 x y 0x2
  | .xorReg x y => wordXYN 0x8 x y 0x3
  | .addReg x y => wordXYN 0x8 x y 0x4
  | .subReg x y => wordXYN 0x8 x y 0x5
  | .shr x y => wordXYN 0x8 x y 0x6
  | .subnReg x y => wordXYN 0x8 x y 0x7
  | .shl x y => wordXYN 0x8 x y 0xE
  | .sneReg x y => wordXYN 0x9 x y 0x0
  | .ldI nnn => wordNNN 0xA nnn
  | .jpV0 nnn => wordNNN 0xB nnn
  | .rnd x kk => wordXKK 0xC x kk
  | .drw x y n => wordXYN 0xD x y n
  | .skp x => wordXKK 0xE x 0x9E
  | .sknp x => wordXKK 0xE x 0xA1
  | .ldFromDt x => wordXKK 0xF x 0x07
  | .ldKey x => wordXKK 0xF x 0x0A
  | .ldToDt x => wordXKK 0xF x 0x15
  | .ldToSt x => wordXKK 0xF x 0x18
  | .addI x => wordXKK 0xF x 0x1E
  | .ldGlyph x => wordXKK 0xF x 0x29
  | .storeBcd x => wordXKK 0xF x 0x33
  | .storeRegs x => wordXKK 0xF x 0x55
  | .loadRegs x => wordXKK 0xF x 0x65

/-- The two bytes of an instruction, in the order memory holds them (R44, R65). -/
def encode (i : Instr) : Byte × Byte := bytesOfWord (encodeWord i)

/-- The 16-bit opcode word whose low `nbits` bits are `w`'s and whose other bits are 0. -/
def tableWord (nbits w : Nat) : Word := BitVec.ofNat 16 (w % 2 ^ nbits)

/-- The instruction the decoder reads from a word numbered as the opcode table numbers it (bit 0 the least significant bit of
the opcode word): its bytes are laid out big-endian (R44) and decoded. -/
def decodeTableWord (nbits w : Nat) : Option Instr :=
  match decode (bytesOfWord (tableWord nbits w)).1 (bytesOfWord (tableWord nbits w)).2 with
  | .ok i => some i
  | .error _ => none

end Sys2Proof
end

