-- ==== Sys2Proof/Config.lean ====
section
/-! DEFINITION. What is fixed for the machine (spec/00_scope.md R4) and the free values: the sizes, the parameter
`FONT` with its default, and what the outside world presents to a cycle when no host move says it. -/

namespace Sys2Proof.Config

/-- `MEM_SIZE`: bytes of memory (R4, R40). -/
abbrev memSize : Nat := 4096

/-- `FB_W * FB_H`: pixels of the framebuffer (R4, R21). -/
abbrev pixels : Nat := 2048

/-- `FB_W`: pixels of one framebuffer row (R4, R21). -/
abbrev rowPixels : Nat := 64

/-- `ENTRY`: the reset value of the program counter and the load address (R4, R211). -/
abbrev entry : Nat := 0x200

/-- The longest program image that fits above `entry` (R32). -/
abbrev maxRom : Nat := 3584

/-- The type of the parameter `FONT`: `FONT_LEN` = 80 bytes, glyph `d` at `5 * d` (R4, R24). -/
abbrev Font : Type := Vector Byte 80

/-- The default of `FONT`, the first eight glyphs, top row first (R24's table). -/
def fontLow : List Byte :=
  [0xF0, 0x90, 0x90, 0x90, 0xF0] ++ [0x20, 0x60, 0x20, 0x20, 0x70] ++
  [0xF0, 0x10, 0xF0, 0x80, 0xF0] ++ [0xF0, 0x10, 0xF0, 0x10, 0xF0] ++
  [0x90, 0x90, 0xF0, 0x10, 0x10] ++ [0xF0, 0x80, 0xF0, 0x10, 0xF0] ++
  [0xF0, 0x80, 0xF0, 0x90, 0xF0] ++ [0xF0, 0x10, 0x20, 0x40, 0x40]

/-- The default of `FONT`, the last eight glyphs (R24's table). -/
def fontHigh : List Byte :=
  [0xF0, 0x90, 0xF0, 0x90, 0xF0] ++ [0xF0, 0x90, 0xF0, 0x10, 0xF0] ++
  [0xF0, 0x90, 0xF0, 0x90, 0x90] ++ [0xE0, 0x90, 0xE0, 0x90, 0xE0] ++
  [0xF0, 0x80, 0x80, 0x80, 0xF0] ++ [0xE0, 0x90, 0x90, 0x90, 0xE0] ++
  [0xF0, 0x80, 0xF0, 0x80, 0xF0] ++ [0xF0, 0x80, 0xF0, 0x80, 0x80]

/-- The default value of the parameter `FONT` (R4, R24, D15): `State.resetWith` and `Safety.launch` take any other.
DESIGN CHOICE (log entry 4): the host's `State.reset` has this one. unsafe. -/
def defaultFont : Font := Vector.mk (fontLow ++ fontHigh).toArray rfl

/-- FREE VALUE: the `key_press` that the input source presents with the cycle after the `n`-th (R34, log entry 1). -/
opaque freeKeyPress : Nat → Option Nibble

/-- FREE VALUE: the `rand_byte` that the random source presents with the cycle after the `n`-th (R37, log entry 1). -/
opaque freeRandByte : Nat → Byte

end Sys2Proof.Config
end

