-- ==== Sys2Proof/Machine/State.lean ====
section
/-! DEFINITION. The state of the core (spec/10_state.md), its ports (R30 to R39), the host's moves
(spec/70_reset_and_hazards.md R216), the reasons a step can stop, and the state after reset (R28, R210). -/

namespace Sys2Proof.Machine

/-- The output `status` of a cycle (R38). -/
inductive Status where
  /-- An instruction executed to its end and the tick ran. -/
  | done
  /-- The instruction at `pc` is FX0A and `key_press` was `none`; nothing changed. -/
  | needsKey
  /-- `HALTED` was already 1, or this cycle's instruction raised a fatal error and set it. -/
  | fatal
  deriving DecidableEq, Repr

/-- The three fatal errors, the core's only exceptions (R180). -/
inductive FatalKind where
  /-- 0NNN and every unassigned word (R181). -/
  | unsupportedOpcode
  /-- 2NNN with 16 entries on the stack (R182). -/
  | stackOverflow
  /-- 00EE with an empty stack (R183). -/
  | stackUnderflow
  deriving DecidableEq, Repr

/-- What one of the external parties does to the core, between cycles or by invoking one (R30 to R35, R216). -/
inductive HostMove where
  /-- The host loop invokes a cycle with these two inputs (R30, R34, R37). -/
  | cycle (keyPress : Option Nibble) (randByte : Byte)
  /-- The input source writes all sixteen key flags (R33). -/
  | writeKeys (keys : Vector Bool 16)
  /-- The renderer has consumed the frame and clears `DRAW_REQ` (R35). -/
  | consumeFrame
  /-- The host asserts reset (R31). -/
  | reset
  /-- The loader copies a program image to memory from 0x200 up (R32). -/
  | load (rom : List Byte)
  deriving DecidableEq, Repr

/-- The state of the machine: every register, array and latch of the summary table of spec/10_state.md, the core's ports, the
parameter `FONT`, and two fields of the model's own (`host`, `draws`). Plain data. -/
structure State where
  /-- `V[0]` to `V[15]`; `V[15]` is `VF` (R10, R11). -/
  v : Vector Byte 16
  /-- `I` (R12). -/
  i : Word
  /-- `pc` (R13). -/
  pc : Word
  /-- `STACK[0]` to `STACK[15]` (R16). -/
  stack : Vector Word 16
  /-- `SP`, the number of entries in use, 0 to 16 (R17). DEDUCED (log entry 9): no other value exists. safe. -/
  sp : Fin 17
  /-- `DT` (R18). -/
  dt : Byte
  /-- `ST` (R19). -/
  st : Byte
  /-- `KEY[0]` to `KEY[15]`, true = pressed (R20). -/
  key : Vector Bool 16
  /-- The framebuffer, 32 rows of 64 one-bit pixels: `FB[k]` is bit `k mod 64` of row `k div 64` (R21).
  DESIGN CHOICE (log entry 8): the form, not the content. safe. -/
  fb : Vector (BitVec 64) 32
  /-- `DRAW_REQ` (R22). -/
  drawReq : Bool
  /-- `MEM`: the bytes that differ from the reset contents, addresses strictly rising (R23). -/
  mem : List Host.Cell
  /-- `HALTED` (R25). -/
  halted : Bool
  /-- `FAULT_KIND` (R26). -/
  faultKind : BitVec 2
  /-- `FAULT_OPCODE` (R26). -/
  faultOpcode : Word
  /-- `FAULT_PC` (R26). -/
  faultPc : Word
  /-- Output `status` of the last cycle; no value before the first (R38, R211). -/
  status : Option Status
  /-- Output `beep` of the last cycle; no value before the first (R36, R211). -/
  beep : Option Bool
  /-- Input `key_press`, as presented with the next cycle (R34). -/
  keyPress : Option Nibble
  /-- Input `rand_byte`, as presented with the next cycle (R37). -/
  randByte : Byte
  /-- The parameter `FONT` this machine was built with (R4, R24): not state of the core (R27), and no step changes it. It stands
  here because a step sees the state alone (log entry 4). -/
  font : Config.Font
  /-- The MODEL's own: what the external parties do next; when empty, the host invokes a cycle (log entry 3). -/
  host : List HostMove
  /-- The MODEL's own: how many cycles have drawn fresh inputs from the free values of `Config` (log entry 1). -/
  draws : Nat
  deriving DecidableEq, Repr

/-- Why a step stops with a fault. No instruction raises one: the core's fatal errors are next states (R184). -/
inductive Fault where
  /-- Raised by the host move `load` when a cycle has been invoked since reset, which the loader never does (R32, R216).
  Safe: the model stops where the spec says nothing happens. -/
  | loadAfterFirstCycle
  deriving DecidableEq, Repr

/-- Why a step is refused. No instruction answers one. -/
inductive Refusal where
  /-- Raised by an arm of `exec` whose instruction has no meaning yet; no arm does. Safe. -/
  | notModelled (mnemonic : String)
  /-- Raised by the host move `load` for an image longer than 3584 bytes, outside every launch premise (R32, D20, U13).
  Safe: the model stops. -/
  | romTooLong
  deriving DecidableEq, Repr

/-- The machine right after reset, given the parameter `FONT` (R28, R210): memory with nothing listed reads as `FONT` below 0x050
and as 0x00 above. The spec gives every value but the four marked ones.
DESIGN CHOICE (log entries 1 to 3): `keyPress`, `randByte`, `host`, `draws`. unsafe for the first two. -/
def State.resetWith (font : Config.Font) : State where
  v := Vector.replicate 16 0x00#8
  i := 0x0000#16
  pc := 0x0200#16
  stack := Vector.replicate 16 0x0000#16
  sp := 0
  dt := 0x00#8
  st := 0x00#8
  key := Vector.replicate 16 false
  fb := Vector.replicate 32 0#64
  drawReq := false
  mem := []
  halted := false
  faultKind := 0#2
  faultOpcode := 0x0000#16
  faultPc := 0x0000#16
  status := none
  beep := none
  keyPress := none
  randByte := 0x00#8
  font := font
  host := []
  draws := 0

/-- The machine right after reset with the default `FONT` (R4, R28, R210, log entry 4). -/
def State.reset : State := State.resetWith Config.defaultFont

end Sys2Proof.Machine
end

