-- ==== Sys2Proof/Machine/Ops.lean ====
section
/-! DEFINITION. The named operations over memory, registers, call stack, program counter and framebuffer, taking a fatal error
(the core's only exception) as one shared operation, the timer tick, and the three ways an execution ends. -/

namespace Sys2Proof.Machine

/-! ## Memory (spec/20_memory.md) -/

/-- What a byte that nothing has written reads as: the reset contents, `FONT` at 0x000 to 0x04F and 0x00 elsewhere (R24, R28). -/
def Memory.resetByte (font : Config.Font) (a : Nat) : Byte := font.toList.getD a 0x00

/-- The byte at address `a`: the listed one, else the reset contents. -/
def Memory.read (font : Config.Font) : List Host.Cell → Nat → Byte
  | [], a => Memory.resetByte font a
  | c :: m, a => if c.1 = a then c.2 else Memory.read font m a

/-- Put the byte `b` of address `a` in front of `m`, unless it is what an unlisted `a` reads as. -/
def Memory.cons (font : Config.Font) (a : Nat) (b : Byte) (m : List Host.Cell) : List Host.Cell :=
  if b = Memory.resetByte font a then m else (a, b) :: m

/-- Set the byte at address `a`, keeping the canonical form. -/
def Memory.write (font : Config.Font) : List Host.Cell → Nat → Byte → List Host.Cell
  | [], a, b => Memory.cons font a b []
  | c :: m, a, b =>
    if a < c.1 then Memory.cons font a b (c :: m)
    else if a = c.1 then Memory.cons font a b m
    else c :: Memory.write font m a b

/-- The addresses of `m` are strictly rising, all at least `lo`, and no entry equals what its address reads as unlisted. -/
def Memory.wfFrom (font : Config.Font) : Nat → List Host.Cell → Bool
  | _, [] => true
  | lo, c :: m =>
    decide (lo ≤ c.1) && decide (c.1 < Config.memSize) && c.2 != Memory.resetByte font c.1 && Memory.wfFrom font (c.1 + 1) m

/-- The canonical form of memory: addresses below 4096, strictly rising, no redundant entry. -/
def Memory.wf (font : Config.Font) (m : List Host.Cell) : Bool := Memory.wfFrom font 0 m

/-- `MemRead(a, 1)`: the byte `MEM[a mod 4096]`, for any address sum `a` (R6, R42). -/
def State.memRead (s : State) (a : Nat) : Byte := Memory.read s.font s.mem (a % Config.memSize)

/-- `MemWrite(a, 1, b)`: sets `MEM[a mod 4096]` (R6, R42). No address is protected (R43). -/
def State.memWrite (s : State) (a : Nat) (b : Byte) : State :=
  { s with mem := Memory.write s.font s.mem (a % Config.memSize) b }

/-- The `n` bytes from address `a` up, each address reduced separately (R42). -/
def State.readBytes (s : State) (a n : Nat) : List Byte := (List.range n).map fun k => s.memRead (a + k)

/-- Store `bs` from address `a` up, ascending, each address reduced separately (R42, R45). -/
def State.writeBytes (s : State) (a : Nat) : List Byte → State
  | [] => s
  | b :: bs => (s.memWrite a b).writeBytes (a + 1) bs

/-- `Fetch16(a)`: the byte at `a` in bits 15:8, the byte at `a + 1` below it (R44). Never fails, needs no alignment. -/
def State.fetch16 (s : State) (a : Word) : Word := wordOfBytes (s.memRead a.toNat) (s.memRead (a.toNat + 1))

/-! ## General registers (spec/10_state.md R10, R11) -/

/-- `V[x]`. -/
def State.getV (s : State) (x : Nibble) : Byte := s.v[x.toNat]'x.isLt

/-- `V[x] <- b`. No register is hard-wired (R10). -/
def State.setV (s : State) (x : Nibble) (b : Byte) : State := { s with v := s.v.set x.toNat b x.isLt }

/-- The index of `VF` (R10, R11). -/
abbrev vf : Nibble := 0xF#4

/-- `V[0]` to `V[n - 1]`, ascending: the block that FX55 stores (R144). -/
def State.readRegs (s : State) (n : Nat) : List Byte := (List.range n).map fun k => s.getV (BitVec.ofNat 4 k)

/-- Load `bs` into the registers from `V[k]` up, ascending: the block load of FX65 (R145). -/
def State.writeRegs (s : State) (k : Nat) : List Byte → State
  | [] => s
  | b :: bs => (s.setV (BitVec.ofNat 4 k) b).writeRegs (k + 1) bs

/-! ## Index register, program counter, timers -/

/-- `I <- w` (R12). -/
def State.setI (s : State) (w : Word) : State := { s with i := w }

/-- `pc <- w` (R13). -/
def State.setPc (s : State) (w : Word) : State := { s with pc := w }

/-- `pc <- pc + 2`, mod 65536 (R13, R14). -/
def State.advance (s : State) : State := s.setPc (s.pc + 2)

/-- The skip convention: `pc + 4` when the condition holds, else `pc + 2`, mod 65536 (R114). -/
def State.skipIf (s : State) (c : Bool) : State := s.setPc (if c then s.pc + 4 else s.pc + 2)

/-- `DT <- b` (R18). -/
def State.setDt (s : State) (b : Byte) : State := { s with dt := b }

/-- `ST <- b` (R19). -/
def State.setSt (s : State) (b : Byte) : State := { s with st := b }

/-! ## Call stack (spec/10_state.md R16, R17) -/

/-- `STACK[k] <- w` (R16). -/
def State.setEntry (s : State) (k : Fin 16) (w : Word) : State := { s with stack := s.stack.set k w }

/-- `SP <- n` (R17). -/
def State.setSp (s : State) (n : Fin 17) : State := { s with sp := n }

/-- `STACK[SP] <- w; SP <- SP + 1`, allowed only when `SP` is at most 15 (R17). -/
def State.push (s : State) (w : Word) : Option State :=
  if h : s.sp.val < 16 then some ((s.setEntry ⟨s.sp.val, h⟩ w).setSp ⟨s.sp.val + 1, by omega⟩)
  else none

/-- `SP <- SP - 1` and the entry `STACK[SP]` it uncovers, allowed only when `SP` is at least 1; the entry stays (R17). -/
def State.pop (s : State) : Option (Word × State) :=
  if h : 0 < s.sp.val then some (s.stack[s.sp.val - 1]'(by omega), s.setSp ⟨s.sp.val - 1, by omega⟩)
  else none

/-! ## Framebuffer (spec/10_state.md R21, R22) -/

/-- The framebuffer row that holds pixel `k`, `k` reduced modulo 2048: `(k mod 2048) div 64` (R21, R153). -/
def pixelRow (k : Nat) : Fin 32 := ⟨k % Config.pixels / Config.rowPixels, by
  simp only [Config.pixels, Config.rowPixels]; omega⟩

/-- The column of pixel `k`: `k mod 64` (R21, R153). -/
def pixelColumn (k : Nat) : Nat := k % Config.rowPixels

/-- `FB[k]`, for `k` below 2048; an index past the plane is reduced modulo 2048 (R21, R153). -/
def State.pixel (s : State) (k : Nat) : Bool := s.fb[pixelRow k].getLsbD (pixelColumn k)

/-- `FB[k] <- FB[k] ^ 1` (R151). -/
def State.flipPixel (s : State) (k : Nat) : State :=
  { s with fb := s.fb.set (pixelRow k) (s.fb[pixelRow k] ^^^ BitVec.twoPow 64 (pixelColumn k)) }

/-- `for i in 0 .. 2047: FB[i] <- 0` (R150). -/
def State.clearScreen (s : State) : State := { s with fb := Vector.replicate 32 0#64 }

/-- `DRAW_REQ <- 1` (R22). -/
def State.requestDraw (s : State) : State := { s with drawReq := true }

/-! ## How an execution ends (spec/30_encoding.md R76, R77) -/

/-- The output `status` of the cycle (R38). -/
def State.setStatus (s : State) (r : Status) : State := { s with status := some r }

/-- `Done`: the instruction's writes are applied; status DONE. The tick belongs to the cycle, not to the instruction (R195). -/
def State.complete (s : State) : Host.Outcome State Fault Refusal := .next (s.setStatus .done)

/-- `NeedsKey`: no write at all; status NEEDS_KEY (R77, R162). -/
def State.needsKey (s : State) : Host.Outcome State Fault Refusal := .next (s.setStatus .needsKey)

/-- The code of a fatal error in `FAULT_KIND` (R26, R180). -/
def FatalKind.code : FatalKind → BitVec 2
  | .unsupportedOpcode => 1#2
  | .stackOverflow => 2#2
  | .stackUnderflow => 3#2

/-- TAKING AN EXCEPTION, the one shared operation: entry into the fatal state from the opcode word `w` (R184, R76). `HALTED` is
set and the fault record written; nothing else changes, `pc` included. There is no handler and no way back: `HALTED` is cleared
by reset alone (R187, `State.applyReset`). -/
def State.raiseFatal (s : State) (kind : FatalKind) (w : Word) : State :=
  { s with
    halted := true
    faultKind := kind.code
    faultOpcode := w
    faultPc := s.pc
    status := some .fatal }

/-- An instruction that raises a fatal error: its only effect is the entry into the fatal state (R184). -/
def State.fatal (s : State) (kind : FatalKind) (w : Word) : Host.Outcome State Fault Refusal := .next (s.raiseFatal kind w)

/-! ## The tick (spec/60_exceptions.md R195 to R197) -/

/-- A timer after a tick: one less, but never below zero (R195). -/
def tickByte (b : Byte) : Byte := if b = 0x00#8 then 0x00#8 else b - 1

/-- The tick at the end of a completed cycle: both timers, each on its own, and `beep` = 1 exactly when the tick takes `ST`
from 1 to 0 (R195, R197). -/
def State.tick (s : State) : State :=
  { s with dt := tickByte s.dt, st := tickByte s.st, beep := some (s.st == 0x01#8) }

end Sys2Proof.Machine
end

