-- ==== Sys2Proof/Machine/Operands.lean ====
section
/-! DEFINITION. The operand forms of the instruction set (spec/30_encoding.md R61 to R63): registers by index, immediates used
as they stand, the address `I` plus an offset, the key a register names, and the pixel a sprite bit falls on. -/

namespace Sys2Proof.Machine

/-- `zext_16(NNN)`: an absolute byte address, not scaled, not relative to `pc` (R63). -/
def addrOperand (nnn : Addr12) : Word := nnn.zeroExtend 16

/-- `zext_16` of a byte (R104, R141, R142). -/
def byteOperand (b : Byte) : Word := b.zeroExtend 16

/-- The only addressing mode: the address sum `I + k`, reduced modulo 4096 by the access itself (R42, R47). -/
def State.indexAddr (s : State) (k : Nat) : Nat := s.i.toNat + k

/-- How many bytes and registers the block of FX55 and FX65 holds: `X + 1` (R144, R145). -/
def blockLength (x : Nibble) : Nat := x.toNat + 1

/-- `I` after a block of FX55 or FX65: `(I + X + 1) mod 65536` (R144, R145). -/
def State.indexAfterBlock (s : State) (x : Nibble) : Word := s.i + BitVec.ofNat 16 (blockLength x)

/-- `KEY[V[X] mod 16]` (R160, R161). -/
def State.keyOf (s : State) (x : Nibble) : Bool := s.key[(s.getV x).toNat % 16]'(by omega)

/-- Is bit column `c` (0 the leftmost) of the sprite row `b` set: bit `7 - c` of the byte (R151). -/
def spriteBit (b : Byte) (c : Nat) : Bool := b.getLsbD (7 - c)

/-- The flat framebuffer index of bit column `c` of sprite row `r` drawn at `(vx, vy)`, both unreduced (R151, R153). -/
def pixelIndex (vx vy : Byte) (r c : Nat) : Nat := (vx.toNat + c + 64 * (vy.toNat + r)) % Config.pixels

/-- The three decimal digits of a byte, hundreds first (R143). -/
def decimalDigits (b : Byte) : List Byte := [b / 100, b / 10 % 10, b % 10]

end Sys2Proof.Machine
end

