-- ==== Sys2Proof/Machine/Flags.lean ====
section
/-! DEFINITION. The values of `VF` as a flag (spec/10_state.md R11) and the order of the two writes of a flag-writing arithmetic
instruction: `VF` first, then `V[X]` (spec/30_encoding.md R75). -/

namespace Sys2Proof.Machine

/-- A flag as the byte written to `VF`: 0x01 or 0x00 (R11). -/
def flagByte (c : Bool) : Byte := if c then 0x01#8 else 0x00#8

/-- Carry of 8XY4: the 9-bit sum exceeds 255 (R126). -/
def carryFlag (vx vy : Byte) : Bool := decide (255 < vx.toNat + vy.toNat)

/-- No borrow of `a - b`, equality included: 8XY5 with `a = vx`, 8XY7 with `a = vy` (R127, R129). -/
def noBorrowFlag (a b : Byte) : Bool := decide (b.toNat ≤ a.toNat)

/-- The bit 8XY6 shifts out: bit 0 before the shift (R128). -/
def shiftedOutLow (vx : Byte) : Bool := vx.getLsbD 0

/-- The bit 8XYE shifts out: bit 7 before the shift (R130). -/
def shiftedOutHigh (vx : Byte) : Bool := vx.getLsbD 7

/-- `VF <- flag; V[X] <- r`: with X = 0xF the result overwrites the flag (R75).
DESIGN CHOICE (log entry 6): decision D5, where the spec lets a model refuse instead. unsafe. -/
def State.setFlagThenV (s : State) (flag : Bool) (x : Nibble) (r : Byte) : State :=
  (s.setV vf (flagByte flag)).setV x r

end Sys2Proof.Machine
end

