-- ==== Sys2Proof/Machine/Display.lean ====
section
/-! DEFINITION. Display instructions and the collision detector: 00E0, DXYN (spec/44_display.md). -/

namespace Sys2Proof.Machine

/-- One set sprite bit: `if FB[idx] = 1: collision <- 1`, then `FB[idx] <- FB[idx] ^ 1` (R151). -/
def State.drawPixel (p : State × Bool) (idx : Nat) : State × Bool :=
  (p.1.flipPixel idx, p.2 || p.1.pixel idx)

/-- The framebuffer indices of the set bits of the sprite row `b`, row number `r`, left to right (R151, R153). -/
def rowPixels (vx vy : Byte) (r : Nat) (b : Byte) : List Nat :=
  ((List.range 8).filter (spriteBit b)).map (pixelIndex vx vy r)

/-- The framebuffer indices of the set bits of the sprite rows `bs`, the first of them row number `r`, top to bottom. -/
def spritePixels (vx vy : Byte) : Nat → List Byte → List Nat
  | _, [] => []
  | r, b :: bs => rowPixels vx vy r b ++ spritePixels vx vy (r + 1) bs

/-- The double loop of DXYN over the sprite's set bits, from the collision flag 0 (R151). -/
def State.drawSprite (s : State) (vx vy : Byte) (rows : List Byte) : State × Bool :=
  (spritePixels vx vy 0 rows).foldl State.drawPixel (s, false)

/-- 00E0: clear the framebuffer and request a draw, whatever it held (R150). -/
def execCls (s : State) : Host.Outcome State Fault Refusal :=
  s.clearScreen.requestDraw.advance.complete

/-- DXYN: XOR the `N` sprite rows at `I` onto the framebuffer at `(V[X], V[Y])`; `VF` is the collision of this draw alone, and
the draw request is made on every execution (R151, R152). -/
def execDrw (x y n : Nibble) (s : State) : Host.Outcome State Fault Refusal :=
  let drawn := s.drawSprite (s.getV x) (s.getV y) (s.readBytes (s.indexAddr 0) n.toNat)
  ((drawn.1.setV vf (flagByte drawn.2)).requestDraw).advance.complete

end Sys2Proof.Machine
end

