-- ==== Sys2Proof/Machine/FlowControl.lean ====
section
/-! DEFINITION. Flow control: 0NNN, 00EE, 1NNN, 2NNN, BNNN (spec/40_flow_control.md). -/

namespace Sys2Proof.Machine

/-- 0NNN: always the fatal error UnsupportedOpcode (R100).
DEDUCED (log entry 10): the recorded word is that of the decoded instruction. safe. -/
def execSys (nnn : Addr12) (s : State) : Host.Outcome State Fault Refusal :=
  s.fatal .unsupportedOpcode (encodeWord (.sys nnn))

/-- 00EE: pop the address of the calling 2NNN and go on after it, or StackUnderflow (R101). -/
def execRet (s : State) : Host.Outcome State Fault Refusal :=
  match s.pop with
  | some (caller, s') => (s'.setPc (caller + 2)).complete
  | none => s.fatal .stackUnderflow (encodeWord .ret)

/-- 1NNN: `pc <- zext_16(NNN)` (R102). -/
def execJp (nnn : Addr12) (s : State) : Host.Outcome State Fault Refusal :=
  (s.setPc (addrOperand nnn)).complete

/-- 2NNN: push the address of this 2NNN, all 16 bits, and jump, or StackOverflow (R103). -/
def execCall (nnn : Addr12) (s : State) : Host.Outcome State Fault Refusal :=
  match s.push s.pc with
  | some s' => (s'.setPc (addrOperand nnn)).complete
  | none => s.fatal .stackOverflow (encodeWord (.call nnn))

/-- BNNN: `pc <- (zext_16(NNN) + zext_16(V[0])) mod 65536`, no flag (R104). -/
def execJpV0 (nnn : Addr12) (s : State) : Host.Outcome State Fault Refusal :=
  (s.setPc (addrOperand nnn + byteOperand (s.getV 0x0))).complete

end Sys2Proof.Machine
end

