-- ==== Sys2Proof/Machine/IndexMemory.lean ====
section
/-! DEFINITION. Index register and memory instructions: ANNN, FX1E, FX29, FX33, FX55, FX65 (spec/43_index_memory.md). -/

namespace Sys2Proof.Machine

/-- ANNN: `I <- zext_16(NNN)` (R140). -/
def execLdI (nnn : Addr12) (s : State) : Host.Outcome State Fault Refusal :=
  (s.setI (addrOperand nnn)).advance.complete

/-- FX1E: `I <- (I + zext_16(V[X])) mod 65536`, no flag (R141). -/
def execAddI (x : Nibble) (s : State) : Host.Outcome State Fault Refusal :=
  (s.setI (s.i + byteOperand (s.getV x))).advance.complete

/-- FX29: `I <- zext_16(V[X]) * 5`, the whole byte, not its low nibble (R142). -/
def execLdGlyph (x : Nibble) (s : State) : Host.Outcome State Fault Refusal :=
  (s.setI (byteOperand (s.getV x) * 5)).advance.complete

/-- FX33: hundreds, tens and ones of `V[X]` at `I`, `I + 1`, `I + 2`; `I` is unchanged (R143). -/
def execStoreBcd (x : Nibble) (s : State) : Host.Outcome State Fault Refusal :=
  (s.writeBytes (s.indexAddr 0) (decimalDigits (s.getV x))).advance.complete

/-- FX55: `V[0]` to `V[X]` to memory from `I` up, then `I <- I + X + 1` (R144). -/
def execStoreRegs (x : Nibble) (s : State) : Host.Outcome State Fault Refusal :=
  ((s.writeBytes (s.indexAddr 0) (s.readRegs (blockLength x))).setI (s.indexAfterBlock x)).advance.complete

/-- FX65: memory from `I` up to `V[0]` to `V[X]`, then `I <- I + X + 1` (R145). -/
def execLoadRegs (x : Nibble) (s : State) : Host.Outcome State Fault Refusal :=
  ((s.writeRegs 0 (s.readBytes (s.indexAddr 0) (blockLength x))).setI (s.indexAfterBlock x)).advance.complete

end Sys2Proof.Machine
end

