-- ==== Sys2Proof/Machine/Keypad.lean ====
section
/-! DEFINITION. Keypad instructions: EX9E, EXA1, FX0A (spec/45_keypad.md). -/

namespace Sys2Proof.Machine

/-- EX9E: skip if `KEY[V[X] mod 16] = 1` (R160). -/
def execSkp (x : Nibble) (s : State) : Host.Outcome State Fault Refusal :=
  (s.skipIf (s.keyOf x)).complete

/-- EXA1: skip if `KEY[V[X] mod 16] = 0` (R161). -/
def execSknp (x : Nibble) (s : State) : Host.Outcome State Fault Refusal :=
  (s.skipIf (!s.keyOf x)).complete

/-- FX0A: with no fresh key press nothing changes and the status is NEEDS_KEY; with one, `V[X]` receives its code (R162).
`KEY` is not consulted. -/
def execLdKey (x : Nibble) (s : State) : Host.Outcome State Fault Refusal :=
  match s.keyPress with
  | none => s.needsKey
  | some c => (s.setV x (c.zeroExtend 8)).advance.complete

end Sys2Proof.Machine
end

