-- ==== Sys2Proof/Machine/RegisterAlu.lean ====
section
/-! DEFINITION. Register load, arithmetic, logic, shift and random instructions: 6XKK, 7XKK, 8XY0 to 8XYE, CXKK
(spec/42_register_alu.md). Every operand is read from the state at the start (R75). -/

namespace Sys2Proof.Machine

/-- `V[X] <- r; pc <- pc + 2`: the instructions that write one register and no flag. -/
def State.writeResult (s : State) (x : Nibble) (r : Byte) : Host.Outcome State Fault Refusal :=
  (s.setV x r).advance.complete

/-- `VF <- flag; V[X] <- r; pc <- pc + 2`: the instructions that write a flag and a result (R75). -/
def State.writeFlagResult (s : State) (flag : Bool) (x : Nibble) (r : Byte) : Host.Outcome State Fault Refusal :=
  (s.setFlagThenV flag x r).advance.complete

/-- 6XKK: `V[X] <- KK` (R120). -/
def execLdImm (x : Nibble) (kk : Byte) (s : State) : Host.Outcome State Fault Refusal :=
  s.writeResult x kk

/-- 7XKK: `V[X] <- (V[X] + KK) mod 256`, no flag (R121). -/
def execAddImm (x : Nibble) (kk : Byte) (s : State) : Host.Outcome State Fault Refusal :=
  s.writeResult x (s.getV x + kk)

/-- 8XY0: `V[X] <- V[Y]` (R122). -/
def execLdReg (x y : Nibble) (s : State) : Host.Outcome State Fault Refusal :=
  s.writeResult x (s.getV y)

/-- 8XY1: bitwise OR; `VF` is not cleared (R123). -/
def execOrReg (x y : Nibble) (s : State) : Host.Outcome State Fault Refusal :=
  s.writeResult x (s.getV x ||| s.getV y)

/-- 8XY2: bitwise AND; `VF` is not cleared (R124). -/
def execAndReg (x y : Nibble) (s : State) : Host.Outcome State Fault Refusal :=
  s.writeResult x (s.getV x &&& s.getV y)

/-- 8XY3: bitwise exclusive OR; `VF` is not cleared (R125). -/
def execXorReg (x y : Nibble) (s : State) : Host.Outcome State Fault Refusal :=
  s.writeResult x (s.getV x ^^^ s.getV y)

/-- 8XY4: add, `VF` = carry (R126). -/
def execAddReg (x y : Nibble) (s : State) : Host.Outcome State Fault Refusal :=
  s.writeFlagResult (carryFlag (s.getV x) (s.getV y)) x (s.getV x + s.getV y)

/-- 8XY5: subtract, `VF` = no borrow (R127). -/
def execSubReg (x y : Nibble) (s : State) : Host.Outcome State Fault Refusal :=
  s.writeFlagResult (noBorrowFlag (s.getV x) (s.getV y)) x (s.getV x - s.getV y)

/-- 8XY6: logical shift right by one, `VF` = old bit 0; the `Y` field selects nothing (R73, R128). -/
def execShr (x _y : Nibble) (s : State) : Host.Outcome State Fault Refusal :=
  s.writeFlagResult (shiftedOutLow (s.getV x)) x (s.getV x >>> 1)

/-- 8XY7: reverse subtract, `VF` = no borrow (R129). -/
def execSubnReg (x y : Nibble) (s : State) : Host.Outcome State Fault Refusal :=
  s.writeFlagResult (noBorrowFlag (s.getV y) (s.getV x)) x (s.getV y - s.getV x)

/-- 8XYE: shift left by one, `VF` = old bit 7; the `Y` field selects nothing (R73, R130). -/
def execShl (x _y : Nibble) (s : State) : Host.Outcome State Fault Refusal :=
  s.writeFlagResult (shiftedOutHigh (s.getV x)) x (s.getV x <<< 1)

/-- CXKK: `V[X] <- rand_byte & KK`, the random byte an input of the cycle under no law (R37, R131). -/
def execRnd (x : Nibble) (kk : Byte) (s : State) : Host.Outcome State Fault Refusal :=
  s.writeResult x (s.randByte &&& kk)

end Sys2Proof.Machine
end

