-- ==== Sys2Proof/Machine/Skips.lean ====
section
/-! DEFINITION. The conditional skips on registers: 3XKK, 4XKK, 5XY0, 9XY0 (spec/41_skips.md). -/

namespace Sys2Proof.Machine

/-- 3XKK: skip if `V[X] = KK` (R110). -/
def execSeImm (x : Nibble) (kk : Byte) (s : State) : Host.Outcome State Fault Refusal :=
  (s.skipIf (s.getV x == kk)).complete

/-- 4XKK: skip if `V[X] ≠ KK` (R111). -/
def execSneImm (x : Nibble) (kk : Byte) (s : State) : Host.Outcome State Fault Refusal :=
  (s.skipIf (s.getV x != kk)).complete

/-- 5XY0: skip if `V[X] = V[Y]` (R112). -/
def execSeReg (x y : Nibble) (s : State) : Host.Outcome State Fault Refusal :=
  (s.skipIf (s.getV x == s.getV y)).complete

/-- 9XY0: skip if `V[X] ≠ V[Y]` (R113). -/
def execSneReg (x y : Nibble) (s : State) : Host.Outcome State Fault Refusal :=
  (s.skipIf (s.getV x != s.getV y)).complete

end Sys2Proof.Machine
end

