-- ==== Sys2Proof/Machine/TimerInstr.lean ====
section
/-! DEFINITION. Timer instructions: FX07, FX15, FX18 (spec/46_timer_instr.md). The decrement is not theirs: it is the tick at
the end of the cycle (R195). -/

namespace Sys2Proof.Machine

/-- FX07: `V[X] <- DT`, as at the start of the cycle (R170). -/
def execLdFromDt (x : Nibble) (s : State) : Host.Outcome State Fault Refusal :=
  (s.setV x s.dt).advance.complete

/-- FX15: `DT <- V[X]` (R171). -/
def execLdToDt (x : Nibble) (s : State) : Host.Outcome State Fault Refusal :=
  (s.setDt (s.getV x)).advance.complete

/-- FX18: `ST <- V[X]`; the instruction itself signals nothing (R172). -/
def execLdToSt (x : Nibble) (s : State) : Host.Outcome State Fault Refusal :=
  (s.setSt (s.getV x)).advance.complete

end Sys2Proof.Machine
end

