-- ==== Sys2Proof/Machine/Cycle.lean ====
section
/-! DEFINITION. One cycle of the core: fetch, decode, execute, tick (spec/30_encoding.md R76). -/

namespace Sys2Proof.Machine

/-- The bytes of the instruction at `pc` as the decoder reads them (R44, R60). -/
def State.fetchDecode (s : State) : Except DecodeError Instr :=
  decode (s.memRead s.pc.toNat) (s.memRead (s.pc.toNat + 1))

/-- The outside world presents the inputs of the next cycle: free values, so a press is not remembered (R34, R37). -/
def State.freshInputs (s : State) : State :=
  { s with
    keyPress := Config.freeKeyPress s.draws
    randByte := Config.freeRandByte s.draws
    draws := s.draws + 1 }

/-- `beep <- 0` for a cycle with no tick (R76, R197). -/
def State.silent (s : State) : State := { s with beep := some false }

/-- The end of a cycle: the tick when and only when the status is DONE, else no tick and no beep (R76, R195, D8); then the inputs
of the next cycle. -/
def State.endCycle (s : State) : State :=
  (if s.status = some .done then s.tick else s.silent).freshInputs

/-- A cycle of a halted core: status FATAL, nothing else changes (R25, R76, R187). -/
def State.haltedCycle (s : State) : State := s.setStatus .fatal

/-- The end of the cycle put after an execution's outcome. -/
def afterExec : Host.Outcome State Fault Refusal → Host.Outcome State Fault Refusal
  | .next s => .next s.endCycle
  | .fault r => .fault r
  | .refused r => .refused r

/-- `Cycle(key_press, rand_byte)`, the inputs standing in the state (R76). An unassigned word takes the fatal error
UnsupportedOpcode (R72). -/
def State.cycle (s : State) : Host.Outcome State Fault Refusal :=
  if s.halted then .next s.haltedCycle.endCycle
  else
    match s.fetchDecode with
    | .ok i => afterExec (exec i s)
    | .error (.unassigned w) => afterExec (s.fatal .unsupportedOpcode w)

end Sys2Proof.Machine
end

