-- ==== Sys2Proof/Machine/Ports.lean ====
section
/-! DEFINITION. What the external parties do to the core through its ports (spec/10_state.md R30 to R35; the host table R216 of
spec/70_reset_and_hazards.md), one host move a step. -/

namespace Sys2Proof.Machine

/-- The input source writes all sixteen flags of `KEY` (R33). -/
def State.applyKeys (s : State) (keys : Vector Bool 16) : State := { s with key := keys }

/-- The renderer clears `DRAW_REQ`; its reading of `FB` changes nothing (R35). -/
def State.applyConsumeFrame (s : State) : State := { s with drawReq := false }

/-- Reset: every piece of the core's state takes its reset value, whatever it was, given the machine's own `FONT` (R31, R210).
What the host does next and the inputs it presents are not the core's state and stay. The only way out of `HALTED` (R187). -/
def State.applyReset (s : State) : State :=
  { State.resetWith s.font with keyPress := s.keyPress, randByte := s.randByte, host := s.host, draws := s.draws }

/-- The loader copies a program image verbatim from 0x200 up (R32, R213), before the first cycle after reset only (R216).
DESIGN CHOICE (log entry 5): any other load stops. safe. -/
def State.applyLoad (s : State) (rom : List Byte) : Host.Outcome State Fault Refusal :=
  if s.status ≠ none then .fault .loadAfterFirstCycle
  else if Config.maxRom < rom.length then .refused .romTooLong
  else .next (s.writeBytes Config.entry rom)

/-- The inputs of the cycle the host invokes (R34, R37). -/
def State.present (s : State) (keyPress : Option Nibble) (randByte : Byte) : State :=
  { s with keyPress := keyPress, randByte := randByte }

/-- The host has made the first of its moves; `rest` are those still to come. -/
def State.setHost (s : State) (rest : List HostMove) : State := { s with host := rest }

/-- One host move (R216). Each happens between cycles, or is a cycle. -/
def State.applyMove (s : State) : HostMove → Host.Outcome State Fault Refusal
  | .cycle keyPress randByte => (s.present keyPress randByte).cycle
  | .writeKeys keys => .next (s.applyKeys keys)
  | .consumeFrame => .next s.applyConsumeFrame
  | .reset => .next s.applyReset
  | .load rom => s.applyLoad rom

/-- What happens next: the first of the host's moves, or, when none is listed, a cycle with the inputs that stand in the
state. -/
def State.hostStep (s : State) : Host.Outcome State Fault Refusal :=
  match s.host with
  | [] => s.cycle
  | m :: rest => (s.setHost rest).applyMove m

/-- Is this host move a cycle invocation? -/
def HostMove.isCycle : HostMove → Bool
  | .cycle _ _ => true
  | .writeKeys _ | .consumeFrame | .reset | .load _ => false

/-- The state with an opcode word in memory where the next cycle fetches, and everything else the very next step needs in order
to fetch it: the core not halted, and no host move but a cycle in front. -/
def State.placeWord (s : State) (w : Word) : State :=
  let t := s.writeBytes s.pc.toNat [(bytesOfWord w).1, (bytesOfWord w).2]
  { t with halted := false, host := t.host.dropWhile fun m => !m.isCycle }

end Sys2Proof.Machine
end

