-- ==== Sys2Proof/Machine/Step.lean ====
section
/-! DEFINITION. The step of the machine, and the placing of one instruction where the next step fetches it. -/

namespace Sys2Proof.Machine

/-- One step: the host's next move, a cycle where it lists none (spec/30_encoding.md R76, spec/70_reset_and_hazards.md R216). -/
def step (s : State) : Host.Outcome State Fault Refusal := s.hostStep

/-- `s` with the instruction `w` (numbered as the opcode table numbers it, bits above `nbits` zero) stored at `pc`, high byte
first (R44), so that the very next step fetches and runs it. -/
def State.withFetchWord (s : State) (nbits w : Nat) : State := s.placeWord (tableWord nbits w)

end Sys2Proof.Machine
end

