-- ==== Sys2Proof/Safety.lean ====
section
/-! DEFINITION. The terms claims use: the launch state and the named premises of spec/70_reset_and_hazards.md R214, the three
ways a run stops making progress (R218), the invariant that every step keeps, and the frame predicates, which say what an
execution leaves unchanged through the model's own reads. -/

namespace Sys2Proof.Safety

open Sys2Proof.Machine

/-! ## Launch and named premises -/

/-- `Launch(FONT, ROM)`: the reset state with the image at 0x200, for an image of at most 3584 bytes (R214). The default `FONT` is
`Config.defaultFont` (R4). -/
def launch (font : Config.Font) (rom : List Byte) : State := (State.resetWith font).writeBytes Config.entry rom

/-- The premise `HALTED` = 0 (R214). -/
def Running (s : State) : Prop := s.halted = false

/-- The premise `SP` = 0 (R214). -/
def StackEmpty (s : State) : Prop := s.sp.val = 0

/-- The premise that the program's bytes are present at their addresses, byte `k` of the image at 0x200 + k (R213, R214). A property
of a state, to be re-established after every store (R51). -/
def ProgramPresent (rom : List Byte) (s : State) : Prop := ∀ (k : Nat) (h : k < rom.length), s.memRead (Config.entry + k) = rom[k]

/-- `PcInvariant`: a property of well-formed programs, not enforced by the hardware (R15). -/
def PcInvariant (s : State) : Prop := s.pc.toNat % 2 = 0 ∧ 0x200 ≤ s.pc.toNat ∧ s.pc.toNat ≤ 0xFFE

/-- `FontIntact`: the font table holds the machine's `FONT` (R43). -/
def FontIntact (s : State) : Prop := ∀ (a : Nat) (h : a < 80), s.memRead a = s.font[a]

/-- FAULTED (R218): `HALTED` = 1, never a good final state. -/
def Faulted (s : State) : Prop := s.halted = true

/-- WAITING (R218): the instruction at `pc` is FX0A and no key press is offered. -/
def Waiting (s : State) : Prop :=
  Running s ∧ s.keyPress = none ∧ ∃ x : Nibble, s.fetchDecode = .ok (.ldKey x)

/-- SPINNING (R218): not halted and `Fetch16(pc) = 0x1000 | pc` with `pc` at most 0xFFF, the conventional end of a program. -/
def Spinning (s : State) : Prop :=
  Running s ∧ s.pc.toNat ≤ 0xFFF ∧ s.fetch16 s.pc = 0x1000#16 ||| s.pc

/-! ## The invariant -/

/-- The fault record tells the truth (R25, R26, R180, R184): while the core runs it is all zero; once the core is halted, `pc`
still stands at the faulting instruction, `FAULT_OPCODE` is the word there, and the condition of the recorded error still
holds. -/
def FaultRecordTrue (s : State) : Prop :=
  (Running s → s.faultKind = 0#2 ∧ s.faultOpcode = 0#16 ∧ s.faultPc = 0#16) ∧
  (Faulted s →
    s.faultPc = s.pc ∧ s.faultOpcode = s.fetch16 s.pc ∧
    ((s.faultKind = FatalKind.unsupportedOpcode.code ∧
        (decodeWord s.faultOpcode = .error (.unassigned s.faultOpcode) ∨
          ∃ nnn : Addr12, decodeWord s.faultOpcode = .ok (.sys nnn))) ∨
      (s.faultKind = FatalKind.stackOverflow.code ∧ s.sp.val = 16 ∧
        ∃ nnn : Addr12, decodeWord s.faultOpcode = .ok (.call nnn)) ∨
      (s.faultKind = FatalKind.stackUnderflow.code ∧ s.sp.val = 0 ∧ decodeWord s.faultOpcode = .ok .ret)))

/-- The outputs agree with the state (R36, R38, R197, R211): no value before the first cycle, status FATAL exactly while halted
and after a cycle, and a beep only in a DONE cycle that left `ST` = 0. -/
def OutputsAgree (s : State) : Prop :=
  (s.halted = true ↔ s.status = some .fatal) ∧
  (s.status = none ↔ s.beep = none) ∧
  (s.beep = some true → s.status = some .done ∧ s.st = 0x00#8)

/-- The invariant that every step keeps: memory in canonical form, the fault record true, the outputs in agreement. -/
def Inv (s : State) : Prop := Memory.wf s.font s.mem = true ∧ FaultRecordTrue s ∧ OutputsAgree s

/-! ## Frames -/

/-- A piece of state that some instruction writes, beside registers, `pc`, `status`, memory and the fault record. -/
inductive Piece where
  | index
  | stack
  | delayTimer
  | soundTimer
  | screen
  | drawRequest
  deriving DecidableEq, Repr

/-- Every general register but those listed is unchanged. -/
def SameRegsBut (xs : List Nibble) (s t : State) : Prop := ∀ r : Nibble, r ∉ xs → t.getV r = s.getV r

/-- Every byte of memory is unchanged. -/
def SameMem (s t : State) : Prop := ∀ a : Nat, t.memRead a = s.memRead a

/-- Every byte of memory outside the `n` bytes stored from address `lo` up (each reduced modulo 4096) is unchanged. -/
def SameMemBut (lo n : Nat) (s t : State) : Prop :=
  ∀ a : Nat, (∀ k : Nat, k < n → a % Config.memSize ≠ (lo + k) % Config.memSize) → t.memRead a = s.memRead a

/-- Every pixel of the framebuffer is unchanged. -/
def SameScreen (s t : State) : Prop := ∀ k : Nat, t.pixel k = s.pixel k

/-- The stack pointer and every entry of the call stack, in use or not, are unchanged. -/
def SameStack (s t : State) : Prop := t.sp = s.sp ∧ ∀ k : Fin 16, t.stack[k] = s.stack[k]

/-- The latch and the fault record are unchanged. -/
def SameFaultRecord (s t : State) : Prop :=
  t.halted = s.halted ∧ t.faultKind = s.faultKind ∧ t.faultOpcode = s.faultOpcode ∧ t.faultPc = s.faultPc

/-- Every key flag is unchanged (R20: no instruction writes `KEY`). -/
def SameKeys (s t : State) : Prop := ∀ k : Fin 16, t.key[k] = s.key[k]

/-- The ports, the parameter `FONT` and the model's own fields are unchanged. -/
def SamePorts (s t : State) : Prop :=
  t.beep = s.beep ∧ t.keyPress = s.keyPress ∧ t.randByte = s.randByte ∧ t.font = s.font ∧ t.host = s.host ∧ t.draws = s.draws

/-- The core's state is unchanged but for the listed registers, the listed pieces, memory and `pc`. -/
def FrameBut (xs : List Nibble) (ps : List Piece) (s t : State) : Prop :=
  SameRegsBut xs s t ∧
  (Piece.index ∉ ps → t.i = s.i) ∧
  (Piece.stack ∉ ps → SameStack s t) ∧
  (Piece.delayTimer ∉ ps → t.dt = s.dt) ∧
  (Piece.soundTimer ∉ ps → t.st = s.st) ∧
  (Piece.screen ∉ ps → SameScreen s t) ∧
  (Piece.drawRequest ∉ ps → t.drawReq = s.drawReq) ∧
  SameFaultRecord s t ∧ SameKeys s t

/-- The frame of an execution that raises no fatal error, `pc`, `status` and memory apart: everything is unchanged but the
listed registers and the listed pieces. -/
def ExecFrame (xs : List Nibble) (ps : List Piece) (s t : State) : Prop := FrameBut xs ps s t ∧ SamePorts s t

/-- All of the core's state but the latch and the fault record is the same: what a fatal error leaves unchanged (R184). -/
def SameButFault (s t : State) : Prop :=
  SameRegsBut [] s t ∧ t.i = s.i ∧ t.pc = s.pc ∧ SameStack s t ∧ t.dt = s.dt ∧ t.st = s.st ∧ SameKeys s t ∧
  SameScreen s t ∧ t.drawReq = s.drawReq ∧ SameMem s t

/-- All of the core's state (the summary table of spec/10_state.md) is the same; the ports may differ. -/
def SameCore (s t : State) : Prop := SameButFault s t ∧ SameFaultRecord s t

/-- `t` is `s` after entry into the fatal state (R184): the latch set, the record of kind `kind` and opcode word `w` written, the
status FATAL, and everything else unchanged. -/
def RaisedFatal (kind : BitVec 2) (w : Word) (s t : State) : Prop :=
  t.halted = true ∧ t.faultKind = kind ∧ t.faultOpcode = w ∧ t.faultPc = s.pc ∧ t.status = some .fatal ∧ SameButFault s t

/-- `s` is about to run a cycle with the inputs of `u`: no host move is listed and `u` is `s`, or the first host move invokes a
cycle and `u` is `s` with that move made and its inputs presented (R30, R34, R37). -/
def AboutToCycle (s u : State) : Prop :=
  (s.host = [] ∧ u = s) ∨
  ∃ (k : Option Nibble) (r : Byte) (rest : List HostMove),
    s.host = .cycle k r :: rest ∧ u = (s.setHost rest).present k r

/-- Sprite bit `c` of row `r` is set and falls on pixel `k`, for the sprite DXYN draws in state `s`: the formula of R151, written
out over the bytes of memory, not through the loop the meaning runs. -/
def Hits (x y n : Nibble) (s : State) (k : Nat) : Prop :=
  ∃ r c : Nat, r < n.toNat ∧ c < 8 ∧ (s.memRead (s.i.toNat + r)).getLsbD (7 - c) = true ∧
    ((s.getV x).toNat + c + 64 * ((s.getV y).toNat + r)) % 2048 = k

/-! ## The opcode table -/

/-- A row of the table of R65: its number, mask and match. -/
structure OpcodeRow where
  number : Nat
  mask : Word
  value : Word
  deriving DecidableEq, Repr

/-- The 35 rows of R65, in the order in which they are tried. -/
def opcodeTable : List OpcodeRow :=
  [⟨1, 0xFFFF, 0x00E0⟩, ⟨2, 0xFFFF, 0x00EE⟩, ⟨3, 0xF000, 0x0000⟩, ⟨4, 0xF000, 0x1000⟩, ⟨5, 0xF000, 0x2000⟩] ++
  [⟨6, 0xF000, 0x3000⟩, ⟨7, 0xF000, 0x4000⟩, ⟨8, 0xF00F, 0x5000⟩, ⟨9, 0xF000, 0x6000⟩, ⟨10, 0xF000, 0x7000⟩] ++
  [⟨11, 0xF00F, 0x8000⟩, ⟨12, 0xF00F, 0x8001⟩, ⟨13, 0xF00F, 0x8002⟩, ⟨14, 0xF00F, 0x8003⟩, ⟨15, 0xF00F, 0x8004⟩] ++
  [⟨16, 0xF00F, 0x8005⟩, ⟨17, 0xF00F, 0x8006⟩, ⟨18, 0xF00F, 0x8007⟩, ⟨19, 0xF00F, 0x800E⟩, ⟨20, 0xF00F, 0x9000⟩] ++
  [⟨21, 0xF000, 0xA000⟩, ⟨22, 0xF000, 0xB000⟩, ⟨23, 0xF000, 0xC000⟩, ⟨24, 0xF000, 0xD000⟩, ⟨25, 0xF0FF, 0xE09E⟩] ++
  [⟨26, 0xF0FF, 0xE0A1⟩, ⟨27, 0xF0FF, 0xF007⟩, ⟨28, 0xF0FF, 0xF00A⟩, ⟨29, 0xF0FF, 0xF015⟩, ⟨30, 0xF0FF, 0xF018⟩] ++
  [⟨31, 0xF0FF, 0xF01E⟩, ⟨32, 0xF0FF, 0xF029⟩, ⟨33, 0xF0FF, 0xF033⟩, ⟨34, 0xF0FF, 0xF055⟩, ⟨35, 0xF0FF, 0xF065⟩]

/-- The first row of the table whose mask and match an opcode word satisfies (R65). -/
def firstRow (w : Word) : Option Nat := (opcodeTable.find? fun r => w &&& r.mask == r.value).map OpcodeRow.number

/-- The number of the row of R65 an instruction stands for. -/
def rowNumber : Instr → Nat
  | .cls => 1
  | .ret => 2
  | .sys _ => 3
  | .jp _ => 4
  | .call _ => 5
  | .seImm _ _ => 6
  | .sneImm _ _ => 7
  | .seReg _ _ => 8
  | .ldImm _ _ => 9
  | .addImm _ _ => 10
  | .ldReg _ _ => 11
  | .orReg _ _ => 12
  | .andReg _ _ => 13
  | .xorReg _ _ => 14
  | .addReg _ _ => 15
  | .subReg _ _ => 16
  | .shr _ _ => 17
  | .subnReg _ _ => 18
  | .shl _ _ => 19
  | .sneReg _ _ => 20
  | .ldI _ => 21
  | .jpV0 _ => 22
  | .rnd _ _ => 23
  | .drw _ _ _ => 24
  | .skp _ => 25
  | .sknp _ => 26
  | .ldFromDt _ => 27
  | .ldKey _ => 28
  | .ldToDt _ => 29
  | .ldToSt _ => 30
  | .addI _ => 31
  | .ldGlyph _ => 32
  | .storeBcd _ => 33
  | .storeRegs _ => 34
  | .loadRegs _ => 35

/-! ## Which instruction writes what (R11, R13, R47) -/

/-- The registers an instruction may write: its destination, and `VF` for those that write it as a flag (R11, R145).
DEDUCED (log entry 7): the six that R11 lists, where it says seven. unsafe. -/
def writesReg (i : Instr) (r : Nibble) : Prop :=
  match i with
  | .ldImm x _ | .addImm x _ | .ldReg x _ | .orReg x _ | .andReg x _ | .xorReg x _ | .rnd x _ => r = x
  | .ldFromDt x | .ldKey x => r = x
  | .addReg x _ | .subReg x _ | .shr x _ | .subnReg x _ | .shl x _ => r = x ∨ r = vf
  | .drw _ _ _ => r = vf
  | .loadRegs x => r.toNat ≤ x.toNat
  | .cls | .ret | .sys _ | .jp _ | .call _ | .seImm _ _ | .sneImm _ _ | .seReg _ _ | .sneReg _ _ | .ldI _ | .jpV0 _ => False
  | .skp _ | .sknp _ | .ldToDt _ | .ldToSt _ | .addI _ | .ldGlyph _ | .storeBcd _ | .storeRegs _ => False

/-- The six conditional skips (R114). -/
def isSkip : Instr → Bool
  | .seImm _ _ | .sneImm _ _ | .seReg _ _ | .sneReg _ _ | .skp _ | .sknp _ => true
  | .cls | .ret | .sys _ | .jp _ | .call _ | .ldImm _ _ | .addImm _ _ | .ldReg _ _ | .orReg _ _ | .andReg _ _ => false
  | .xorReg _ _ | .addReg _ _ | .subReg _ _ | .shr _ _ | .subnReg _ _ | .shl _ _ | .ldI _ | .jpV0 _ | .rnd _ _ => false
  | .drw _ _ _ | .ldFromDt _ | .ldKey _ | .ldToDt _ | .ldToSt _ | .addI _ | .ldGlyph _ | .storeBcd _ | .storeRegs _ => false
  | .loadRegs _ => false

/-- The instructions that set `pc` to a target instead of passing to the next one or two instructions (R105). -/
def isJump : Instr → Bool
  | .ret | .jp _ | .call _ | .jpV0 _ => true
  | .cls | .sys _ | .seImm _ _ | .sneImm _ _ | .seReg _ _ | .sneReg _ _ | .ldImm _ _ | .addImm _ _ | .ldReg _ _ => false
  | .orReg _ _ | .andReg _ _ | .xorReg _ _ | .addReg _ _ | .subReg _ _ | .shr _ _ | .subnReg _ _ | .shl _ _ => false
  | .ldI _ | .rnd _ _ | .drw _ _ _ | .skp _ | .sknp _ | .ldFromDt _ | .ldKey _ | .ldToDt _ | .ldToSt _ | .addI _ => false
  | .ldGlyph _ | .storeBcd _ | .storeRegs _ | .loadRegs _ => false

/-- The two instructions that store to memory (R47). -/
def isStore : Instr → Bool
  | .storeBcd _ | .storeRegs _ => true
  | .cls | .ret | .sys _ | .jp _ | .call _ | .seImm _ _ | .sneImm _ _ | .seReg _ _ | .sneReg _ _ | .ldImm _ _ => false
  | .addImm _ _ | .ldReg _ _ | .orReg _ _ | .andReg _ _ | .xorReg _ _ | .addReg _ _ | .subReg _ _ | .shr _ _ => false
  | .subnReg _ _ | .shl _ _ | .ldI _ | .jpV0 _ | .rnd _ _ | .drw _ _ _ | .skp _ | .sknp _ | .ldFromDt _ | .ldKey _ => false
  | .ldToDt _ | .ldToSt _ | .addI _ | .ldGlyph _ | .loadRegs _ => false

end Sys2Proof.Safety
end

