-- ==== Sys2Proof/Certificates/Slice0/Obligations.lean ====
section
/-! DEFINITION. The statements for the provers, from the numbered rules of spec/. In every statement about an instruction `s` is
the state it executes in and `t` the state it leaves, before the tick, which belongs to the cycle. -/

open Sys2Proof Sys2Proof.Machine Sys2Proof.Safety

/-! ## Reset -/

/-- R28, R210: given `FONT`, every piece of state has the value of the summary table after reset. -/
def Obligations.ResetLeavesTheTableValues : Prop :=
  ∀ font : Config.Font,
    (∀ r : Nibble, (State.resetWith font).getV r = 0x00#8) ∧ (State.resetWith font).i = 0x0000#16 ∧
    (State.resetWith font).pc = 0x0200#16 ∧ (∀ k : Fin 16, (State.resetWith font).stack[k] = 0x0000#16) ∧
    (State.resetWith font).sp.val = 0 ∧ (State.resetWith font).dt = 0x00#8 ∧ (State.resetWith font).st = 0x00#8 ∧
    (∀ k : Fin 16, (State.resetWith font).key[k] = false) ∧ (∀ k : Nat, (State.resetWith font).pixel k = false) ∧
    (State.resetWith font).drawReq = false ∧
    (∀ (a : Nat) (h : a < 0x050), (State.resetWith font).memRead a = font[a]) ∧
    (∀ a : Nat, 0x050 ≤ a → a < 4096 → (State.resetWith font).memRead a = 0x00#8) ∧
    (State.resetWith font).halted = false ∧ (State.resetWith font).faultKind = 0#2 ∧
    (State.resetWith font).faultOpcode = 0x0000#16 ∧ (State.resetWith font).faultPc = 0x0000#16

/-- The invariant holds at reset, for every `FONT`, and so at the host's `State.reset`, which has the default one (R4). -/
def Obligations.ResetSatisfiesTheInvariant : Prop := (∀ font : Config.Font, Inv (State.resetWith font)) ∧ Inv State.reset

/-- R31, R210: a reset asserted between cycles, in whatever state, `HALTED` included, puts the core's state at its reset values,
given the machine's `FONT`; the outputs have no value again (R211). -/
def Obligations.ResetMoveRestoresTheResetState : Prop :=
  ∀ (s : State) (rest : List HostMove), s.host = .reset :: rest →
    ∃ t, step s = .next t ∧ SameCore (State.resetWith s.font) t ∧ t.status = none ∧ t.beep = none ∧ t.font = s.font ∧
      t.host = rest

/-! ## Encoding and decoding -/

/-- R65: sample words of every family, written out from the table, decode to the instructions they stand for. -/
def Obligations.SampleWordsDecode : Prop :=
  decode 0x00 0xE0 = .ok .cls ∧ decode 0x00 0xEE = .ok .ret ∧ decode 0x00 0xE1 = .ok (.sys 0x0E1) ∧
  decode 0x1A 0xBC = .ok (.jp 0xABC) ∧ decode 0xB2 0xFF = .ok (.jpV0 0x2FF) ∧
  decode 0x3A 0x7F = .ok (.seImm 0xA 0x7F) ∧ decode 0x5A 0xB0 = .ok (.seReg 0xA 0xB) ∧
  decode 0x8A 0xB4 = .ok (.addReg 0xA 0xB) ∧ decode 0xC3 0x0F = .ok (.rnd 0x3 0x0F) ∧
  decode 0xA2 0xF0 = .ok (.ldI 0x2F0) ∧ decode 0xF1 0x65 = .ok (.loadRegs 0x1) ∧
  decode 0xD1 0x23 = .ok (.drw 0x1 0x2 0x3) ∧ decode 0xE1 0x9E = .ok (.skp 0x1) ∧
  decode 0xF1 0x15 = .ok (.ldToDt 0x1) ∧ decode 0x5A 0xB1 = .error (.unassigned 0x5AB1)

/-- Decoding the two bytes of every well-formed instruction gives it back, with every operand at every value. -/
def Obligations.DecodeOfEncodeIsTheInstruction : Prop :=
  ∀ i : Instr, i.wellFormed = true → decode (encode i).1 (encode i).2 = .ok i

/-- The decoder drops no bit: the two bytes of what it reads are the bytes it read, and it reads only well-formed
instructions. -/
def Obligations.EncodeOfDecodeIsTheBytes : Prop :=
  ∀ (hi lo : Byte) (i : Instr), decode hi lo = .ok i → i.wellFormed = true ∧ encode i = (hi, lo)

/-- R65: the two-level dispatch reads from every opcode word the first row of the table whose mask and match it satisfies, and
rejects exactly the words that match no row. -/
def Obligations.DecoderFollowsTheOrderedTable : Prop :=
  ∀ w : Word,
    firstRow w = match decodeWord w with
      | .ok i => some (rowNumber i)
      | .error _ => none

/-- R72: the unassigned words are exactly the five sets the rule lists, and each is rejected under its own name. -/
def Obligations.UnassignedWordsAreExactlyTheListed : Prop :=
  ∀ (op x y n : Nibble) (w : Word), w = wordXYN op x y n →
    (decodeWord w = .error (.unassigned w) ↔
      (op = 0x5 ∧ n ≠ 0x0) ∨ (op = 0x8 ∧ n ∈ [0x8#4, 0x9#4, 0xA#4, 0xB#4, 0xC#4, 0xD#4, 0xF#4]) ∨ (op = 0x9 ∧ n ≠ 0x0) ∨
      (op = 0xE ∧ y ++ n ∉ [0x9E#8, 0xA1#8]) ∨
      (op = 0xF ∧ y ++ n ∉ [0x07#8, 0x0A#8, 0x15#8, 0x18#8, 0x1E#8, 0x29#8, 0x33#8, 0x55#8, 0x65#8]))

/-! ## Memory and fetch -/

/-- R42, R48: a byte read after a byte was written is the byte written, when the addresses agree modulo 4096, and else what it
was; the write keeps the canonical form. -/
def Obligations.ReadAfterWrite : Prop :=
  ∀ (s : State) (a a' : Nat) (b : Byte), Memory.wf s.font s.mem = true →
    (s.memWrite a b).memRead a' = (if a' % 4096 = a % 4096 then b else s.memRead a') ∧ Memory.wf (s.memWrite a b).font (s.memWrite a b).mem = true

/-- R44: fetch is big-endian, works at every 16-bit address, and wraps at the top of memory. -/
def Obligations.FetchIsBigEndianAndWraps : Prop :=
  ∀ (s : State) (a : Word),
    (s.fetch16 a).toNat = 256 * (s.memRead (a.toNat % 4096)).toNat + (s.memRead ((a.toNat + 1) % 4096)).toNat

/-- R51: an instruction that has been stored at `pc` is what the next cycle fetches, whatever stood there before. -/
def Obligations.StoredInstructionIsFetched : Prop :=
  ∀ (s : State) (i : Instr), Memory.wf s.font s.mem = true → i.wellFormed = true →
    (s.withFetchWord 16 (encodeWord i).toNat).fetchDecode = .ok i ∧ (s.withFetchWord 16 (encodeWord i).toNat).pc = s.pc

/-! ## The cycle -/

/-- R76: when the bytes at `pc` decode to `i`, a step whose next move is a cycle of a running core is `exec i` followed by the
end of the cycle (`State.endCycle`: the tick on DONE, then the inputs of the next cycle). -/
def Obligations.StepRunsTheDecodedInstruction : Prop :=
  ∀ (s u : State) (i : Instr), AboutToCycle s u → Running u →
    decode (u.memRead u.pc.toNat) (u.memRead (u.pc.toNat + 1)) = .ok i →
    step s = match exec i u with
      | .next t => .next t.endCycle
      | .fault r => .fault r
      | .refused r => .refused r

/-- R195, R197: the end of a completed cycle takes one from each timer that is not 0, each on its own, beeps exactly when it
takes `ST` from 1 to 0, and changes nothing else; the end of a cycle that is not DONE changes no state and does not beep. -/
def Obligations.TickOnlyAtTheEndOfACompletedCycle : Prop :=
  ∀ t : State,
    (t.status = some .done →
      t.endCycle.dt.toNat = t.dt.toNat - 1 ∧ t.endCycle.st.toNat = t.st.toNat - 1 ∧
      t.endCycle.beep = some (decide (t.st.toNat = 1)) ∧
      FrameBut [] [.delayTimer, .soundTimer] t t.endCycle ∧ SameMem t t.endCycle ∧ t.endCycle.pc = t.pc) ∧
    (t.status ≠ some .done → SameCore t t.endCycle ∧ t.endCycle.beep = some false) ∧
    t.endCycle.status = t.status ∧ t.endCycle.host = t.host

/-- R77: every cycle ends in one of three ways: DONE, with the latch and the record unchanged (what else it changes is the
instruction's own statement); NEEDS_KEY with nothing changed; FATAL with only the latch and the record changed, or nothing where
the core was halted already. -/
def Obligations.EveryCycleEndsInOneOfThreeWays : Prop :=
  ∀ s u : State, AboutToCycle s u →
    ∃ t, step s = .next t ∧
      ((t.status = some .done ∧ Running u ∧ SameFaultRecord u t) ∨
        (t.status = some .needsKey ∧ Running u ∧ SameCore u t ∧ t.beep = some false) ∨
        (t.status = some .fatal ∧ Running u ∧ t.halted = true ∧ t.faultPc = u.pc ∧ t.faultOpcode = u.fetch16 u.pc ∧
          t.faultKind ≠ 0#2 ∧ SameButFault u t ∧ t.beep = some false) ∨
        (t.status = some .fatal ∧ Faulted u ∧ SameCore u t ∧ t.beep = some false))

/-- R181, R182, R183: a cycle of a running core raises UnsupportedOpcode exactly for 0NNN and the unassigned words, StackOverflow
exactly for 2NNN with 16 entries in use, StackUnderflow exactly for 00EE with none; the record names the word and its address. -/
def Obligations.FatalErrorsExactlyWhereTheRulesSay : Prop :=
  ∀ (s u : State), AboutToCycle s u → Running u →
    ∃ t, step s = .next t ∧
      ((t.halted = true ∧ t.faultKind = 1#2) ↔
        (decodeWord (u.fetch16 u.pc) = .error (.unassigned (u.fetch16 u.pc)) ∨
          ∃ nnn : Addr12, decodeWord (u.fetch16 u.pc) = .ok (.sys nnn))) ∧
      ((t.halted = true ∧ t.faultKind = 2#2) ↔
        (u.sp.val = 16 ∧ ∃ nnn : Addr12, decodeWord (u.fetch16 u.pc) = .ok (.call nnn))) ∧
      ((t.halted = true ∧ t.faultKind = 3#2) ↔ (u.sp.val = 0 ∧ decodeWord (u.fetch16 u.pc) = .ok .ret)) ∧
      (t.halted = true → t.faultKind ≠ 0#2 ∧ t.faultOpcode = u.fetch16 u.pc ∧ t.faultPc = u.pc)

/-- R25, R187: a halted core stays halted with the same record under every step but a reset, and a cycle of it changes
nothing. -/
def Obligations.OnlyResetEndsTheHalt : Prop :=
  ∀ s t : State, Faulted s → step s = .next t →
    ((∃ rest, s.host = .reset :: rest) ∨ SameFaultRecord s t) ∧
    (∀ u, AboutToCycle s u → t.status = some .fatal ∧ SameCore u t)

/-- R162, R218 (2): a running core at an FX0A with no key press offered completes a cycle that leaves everything as it was, so that
it waits there again whenever no press is offered again. -/
def Obligations.WaitingForAKeyChangesNothing : Prop :=
  ∀ s u : State, AboutToCycle s u → Waiting u →
    ∃ t, step s = .next t ∧ t.status = some .needsKey ∧ SameCore u t ∧ (t.keyPress = none → Waiting t)

/-- R102, R218 (3): a core at the conventional end of a program completes every cycle there and only its timers change. -/
def Obligations.SpinningGoesOnForever : Prop :=
  ∀ s u : State, AboutToCycle s u → Spinning u →
    ∃ t, step s = .next t ∧ t.status = some .done ∧ Spinning t ∧ t.pc = u.pc ∧
      FrameBut [] [.delayTimer, .soundTimer] u t ∧ SameMem u t

/-! ## Flow control -/

/-- R100: 0NNN enters the fatal state with code 1 and its own word, and changes nothing else. -/
def Obligations.SysIsAlwaysFatal : Prop :=
  ∀ (nnn : Addr12) (s : State),
    ∃ t, exec (.sys nnn) s = .next t ∧ RaisedFatal 1#2 (nnn.zeroExtend 16) s t ∧ SamePorts s t

/-- R101: 00EE goes on after the call whose address is the newest entry, or enters the fatal state with code 3 where there is
none. -/
def Obligations.RetReturnsOrUnderflows : Prop :=
  ∀ s : State,
    (∀ k : Fin 16, s.sp.val = k.val + 1 →
      ∃ t, exec .ret s = .next t ∧ t.status = some .done ∧ t.sp.val = k.val ∧ t.pc = s.stack[k] + 2 ∧
        (∀ j : Fin 16, t.stack[j] = s.stack[j]) ∧ ExecFrame [] [.stack] s t ∧ SameMem s t) ∧
    (s.sp.val = 0 → ∃ t, exec .ret s = .next t ∧ RaisedFatal 3#2 0x00EE#16 s t ∧ SamePorts s t)

/-- R103: 2NNN pushes its own address and jumps, or enters the fatal state with code 2 where 16 entries are in use. -/
def Obligations.CallPushesOrOverflows : Prop :=
  ∀ (nnn : Addr12) (s : State),
    (∀ k : Fin 16, s.sp.val = k.val →
      ∃ t, exec (.call nnn) s = .next t ∧ t.status = some .done ∧ t.sp.val = k.val + 1 ∧ t.pc.toNat = nnn.toNat ∧
        t.stack[k] = s.pc ∧ (∀ j : Fin 16, j ≠ k → t.stack[j] = s.stack[j]) ∧ ExecFrame [] [.stack] s t ∧ SameMem s t) ∧
    (s.sp.val = 16 → ∃ t, exec (.call nnn) s = .next t ∧ RaisedFatal 2#2 (0x2000#16 ||| nnn.zeroExtend 16) s t ∧ SamePorts s t)

/-- R102, R104: 1NNN jumps to NNN, BNNN to NNN + V[0], which never wraps; nothing else changes, and no flag is written. -/
def Obligations.JumpsSetThePc : Prop :=
  ∀ (nnn : Addr12) (s : State),
    (∃ t, exec (.jp nnn) s = .next t ∧ t.status = some .done ∧ t.pc.toNat = nnn.toNat ∧ ExecFrame [] [] s t ∧ SameMem s t) ∧
    (∃ t, exec (.jpV0 nnn) s = .next t ∧ t.status = some .done ∧ t.pc.toNat = nnn.toNat + (s.getV 0x0).toNat ∧
      ExecFrame [] [] s t ∧ SameMem s t)

/-- R101, R103: a call and the return from it go on after the call, with the stack pointer and every register, timer, pixel and
byte as they were. -/
def Obligations.CallThenReturnResumesAfterTheCall : Prop :=
  ∀ (nnn : Addr12) (s : State), s.sp.val < 16 →
    ∃ t u, exec (.call nnn) s = .next t ∧ exec .ret t = .next u ∧ u.pc = s.pc + 2 ∧ u.sp = s.sp ∧
      (∀ j : Fin 16, j.val < s.sp.val → u.stack[j] = s.stack[j]) ∧ ExecFrame [] [.stack] s u ∧ SameMem s u

/-- R13, R105: how an execution may change `pc`: a completed instruction passes to the next one, or over it where it is a skip,
unless it is one of the four jumps; one that does not complete leaves `pc` where it was. -/
def Obligations.PcAdvancesByTwoOrFourUnlessJumping : Prop :=
  ∀ (i : Instr) (s t : State), exec i s = .next t →
    (t.status = some .done → isJump i = false → t.pc = s.pc + 2 ∨ (isSkip i = true ∧ t.pc = s.pc + 4)) ∧
    (t.status ≠ some .done → t.pc = s.pc)

/-! ## Skips -/

/-- R110 to R114: the four skips on registers advance `pc` by 4 when their condition holds, else by 2, modulo 65536, and change
nothing else. -/
def Obligations.RegisterSkipsAdvanceByFourOrTwo : Prop :=
  ∀ (x y : Nibble) (kk : Byte) (s : State),
    (∃ t, exec (.seImm x kk) s = .next t ∧ t.status = some .done ∧ ExecFrame [] [] s t ∧ SameMem s t ∧
      t.pc.toNat = (s.pc.toNat + if (s.getV x).toNat = kk.toNat then 4 else 2) % 65536) ∧
    (∃ t, exec (.sneImm x kk) s = .next t ∧ t.status = some .done ∧ ExecFrame [] [] s t ∧ SameMem s t ∧
      t.pc.toNat = (s.pc.toNat + if (s.getV x).toNat ≠ kk.toNat then 4 else 2) % 65536) ∧
    (∃ t, exec (.seReg x y) s = .next t ∧ t.status = some .done ∧ ExecFrame [] [] s t ∧ SameMem s t ∧
      t.pc.toNat = (s.pc.toNat + if (s.getV x).toNat = (s.getV y).toNat then 4 else 2) % 65536) ∧
    (∃ t, exec (.sneReg x y) s = .next t ∧ t.status = some .done ∧ ExecFrame [] [] s t ∧ SameMem s t ∧
      t.pc.toNat = (s.pc.toNat + if (s.getV x).toNat ≠ (s.getV y).toNat then 4 else 2) % 65536)

/-- R160, R161: the two key skips test the key that the low nibble of `V[X]` names, and change nothing but `pc`. -/
def Obligations.KeySkipsTestTheNamedKey : Prop :=
  ∀ (x : Nibble) (s : State) (k : Fin 16), (s.getV x).toNat % 16 = k.val →
    (∃ t, exec (.skp x) s = .next t ∧ t.status = some .done ∧ ExecFrame [] [] s t ∧ SameMem s t ∧
      t.pc = s.pc + if s.key[k] = true then 4 else 2) ∧
    (∃ t, exec (.sknp x) s = .next t ∧ t.status = some .done ∧ ExecFrame [] [] s t ∧ SameMem s t ∧
      t.pc = s.pc + if s.key[k] = false then 4 else 2)

/-! ## Registers and arithmetic -/

/-- R120, R121, R122: load immediate, add immediate modulo 256, copy; only `V[X]` changes, and no flag is written. -/
def Obligations.LoadsAndAddImmediateWriteOnlyVx : Prop :=
  ∀ (x y : Nibble) (kk : Byte) (s : State),
    (∃ t, exec (.ldImm x kk) s = .next t ∧ t.status = some .done ∧ t.pc = s.pc + 2 ∧ t.getV x = kk ∧
      ExecFrame [x] [] s t ∧ SameMem s t) ∧
    (∃ t, exec (.addImm x kk) s = .next t ∧ t.status = some .done ∧ t.pc = s.pc + 2 ∧
      (t.getV x).toNat = ((s.getV x).toNat + kk.toNat) % 256 ∧ ExecFrame [x] [] s t ∧ SameMem s t) ∧
    (∃ t, exec (.ldReg x y) s = .next t ∧ t.status = some .done ∧ t.pc = s.pc + 2 ∧ t.getV x = s.getV y ∧
      ExecFrame [x] [] s t ∧ SameMem s t)

/-- R123, R124, R125: OR, AND and XOR, bit by bit; only `V[X]` changes, and `VF` is not cleared. -/
def Obligations.LogicIsBitwise : Prop :=
  ∀ (x y : Nibble) (s : State),
    (∃ t, exec (.orReg x y) s = .next t ∧ t.status = some .done ∧ t.pc = s.pc + 2 ∧ ExecFrame [x] [] s t ∧ SameMem s t ∧
      ∀ b, b < 8 → ((t.getV x).getLsbD b = true ↔ (s.getV x).getLsbD b = true ∨ (s.getV y).getLsbD b = true)) ∧
    (∃ t, exec (.andReg x y) s = .next t ∧ t.status = some .done ∧ t.pc = s.pc + 2 ∧ ExecFrame [x] [] s t ∧ SameMem s t ∧
      ∀ b, b < 8 → ((t.getV x).getLsbD b = true ↔ (s.getV x).getLsbD b = true ∧ (s.getV y).getLsbD b = true)) ∧
    (∃ t, exec (.xorReg x y) s = .next t ∧ t.status = some .done ∧ t.pc = s.pc + 2 ∧ ExecFrame [x] [] s t ∧ SameMem s t ∧
      ∀ b, b < 8 → ((t.getV x).getLsbD b = true ↔ ¬((s.getV x).getLsbD b = true ↔ (s.getV y).getLsbD b = true)))

/-- R126: 8XY4 adds the two old register values modulo 256; `VF` is the carry, unless X = 0xF, where the sum wins. -/
def Obligations.AddSetsTheCarry : Prop :=
  ∀ (x y : Nibble) (s : State),
    ∃ t, exec (.addReg x y) s = .next t ∧ t.status = some .done ∧ t.pc = s.pc + 2 ∧ ExecFrame [x, vf] [] s t ∧ SameMem s t ∧
      (t.getV x).toNat = ((s.getV x).toNat + (s.getV y).toNat) % 256 ∧
      (x ≠ vf → (t.getV vf).toNat = if 255 < (s.getV x).toNat + (s.getV y).toNat then 1 else 0)

/-- R127, R129: 8XY5 and 8XY7 subtract the old register values modulo 256, one way and the other; `VF` is 1 when no borrow
occurs, equality included, unless X = 0xF, where the difference wins. -/
def Obligations.SubtractionsSetNoBorrow : Prop :=
  ∀ (x y : Nibble) (s : State),
    (∃ t, exec (.subReg x y) s = .next t ∧ t.status = some .done ∧ t.pc = s.pc + 2 ∧ ExecFrame [x, vf] [] s t ∧ SameMem s t ∧
      (t.getV x).toNat = ((s.getV x).toNat + 256 - (s.getV y).toNat) % 256 ∧
      (x ≠ vf → (t.getV vf).toNat = if (s.getV y).toNat ≤ (s.getV x).toNat then 1 else 0)) ∧
    (∃ t, exec (.subnReg x y) s = .next t ∧ t.status = some .done ∧ t.pc = s.pc + 2 ∧ ExecFrame [x, vf] [] s t ∧ SameMem s t ∧
      (t.getV x).toNat = ((s.getV y).toNat + 256 - (s.getV x).toNat) % 256 ∧
      (x ≠ vf → (t.getV vf).toNat = if (s.getV x).toNat ≤ (s.getV y).toNat then 1 else 0))

/-- R128, R130: 8XY6 halves `V[X]` rounding down and 8XYE doubles it modulo 256, whatever Y; `VF` is the bit shifted out, unless
X = 0xF, where the result wins. -/
def Obligations.ShiftsByOneSetTheBitShiftedOut : Prop :=
  ∀ (x y : Nibble) (s : State),
    (∃ t, exec (.shr x y) s = .next t ∧ t.status = some .done ∧ t.pc = s.pc + 2 ∧ ExecFrame [x, vf] [] s t ∧ SameMem s t ∧
      (t.getV x).toNat = (s.getV x).toNat / 2 ∧ (x ≠ vf → (t.getV vf).toNat = (s.getV x).toNat % 2)) ∧
    (∃ t, exec (.shl x y) s = .next t ∧ t.status = some .done ∧ t.pc = s.pc + 2 ∧ ExecFrame [x, vf] [] s t ∧ SameMem s t ∧
      (t.getV x).toNat = 2 * (s.getV x).toNat % 256 ∧ (x ≠ vf → (t.getV vf).toNat = (s.getV x).toNat / 128))

/-- R131: CXKK writes the random byte of the cycle under the mask KK, for every random byte; only `V[X]` changes. -/
def Obligations.RandomByteUnderMask : Prop :=
  ∀ (x : Nibble) (kk : Byte) (s : State),
    ∃ t, exec (.rnd x kk) s = .next t ∧ t.status = some .done ∧ t.pc = s.pc + 2 ∧ ExecFrame [x] [] s t ∧ SameMem s t ∧
      t.getV x = s.randByte &&& kk ∧ t.getV x &&& ~~~kk = 0x00#8

/-- The registers an execution may change: `VF` as a flag by 8XY4, 8XY5, 8XY6, 8XY7, 8XYE and DXYN, and the destination of those
that have one; every other register keeps its value, in every instruction. That the flag-writing instructions are these six is the
model's reading (DEDUCED, log entry 7): R11 says "exactly seven" and lists these six. -/
def Obligations.OnlyTheNamedRegistersChange : Prop :=
  ∀ (i : Instr) (s t : State), exec i s = .next t → ∀ r : Nibble, ¬writesReg i r → t.getV r = s.getV r

/-! ## Index and memory -/

/-- R140, R141, R142: the three loads of `I`, with no flag and no 12-bit reduction. -/
def Obligations.IndexLoads : Prop :=
  ∀ (x : Nibble) (nnn : Addr12) (s : State),
    (∃ t, exec (.ldI nnn) s = .next t ∧ t.status = some .done ∧ t.pc = s.pc + 2 ∧ ExecFrame [] [.index] s t ∧ SameMem s t ∧
      t.i.toNat = nnn.toNat) ∧
    (∃ t, exec (.addI x) s = .next t ∧ t.status = some .done ∧ t.pc = s.pc + 2 ∧ ExecFrame [] [.index] s t ∧ SameMem s t ∧
      t.i.toNat = (s.i.toNat + (s.getV x).toNat) % 65536) ∧
    (∃ t, exec (.ldGlyph x) s = .next t ∧ t.status = some .done ∧ t.pc = s.pc + 2 ∧ ExecFrame [] [.index] s t ∧ SameMem s t ∧
      t.i.toNat = 5 * (s.getV x).toNat)

/-- R143: FX33 stores hundreds, tens and ones of `V[X]` at `I`, `I + 1`, `I + 2`, each address modulo 4096, and nothing else
changes, `I` included. -/
def Obligations.BcdStoresTheThreeDigits : Prop :=
  ∀ (x : Nibble) (s : State), Memory.wf s.font s.mem = true →
    ∃ t, exec (.storeBcd x) s = .next t ∧ t.status = some .done ∧ t.pc = s.pc + 2 ∧ ExecFrame [] [] s t ∧
      (t.memRead s.i.toNat).toNat = (s.getV x).toNat / 100 ∧
      (t.memRead (s.i.toNat + 1)).toNat = (s.getV x).toNat / 10 % 10 ∧
      (t.memRead (s.i.toNat + 2)).toNat = (s.getV x).toNat % 10 ∧ SameMemBut s.i.toNat 3 s t

/-- R144: FX55 stores `V[0]` to `V[X]` from `I` up and advances `I` by X + 1; no other byte and no register changes. -/
def Obligations.BlockStoreCopiesTheRegisters : Prop :=
  ∀ (x : Nibble) (s : State), Memory.wf s.font s.mem = true →
    ∃ t, exec (.storeRegs x) s = .next t ∧ t.status = some .done ∧ t.pc = s.pc + 2 ∧ ExecFrame [] [.index] s t ∧
      (∀ r : Nibble, r.toNat ≤ x.toNat → t.memRead (s.i.toNat + r.toNat) = s.getV r) ∧
      SameMemBut s.i.toNat (x.toNat + 1) s t ∧ t.i.toNat = (s.i.toNat + x.toNat + 1) % 65536

/-- R145: FX65 loads `V[0]` to `V[X]` from `I` up and advances `I` by X + 1; the registers above `V[X]` and all of memory are
unchanged. -/
def Obligations.BlockLoadCopiesTheMemory : Prop :=
  ∀ (x : Nibble) (s : State),
    ∃ t, exec (.loadRegs x) s = .next t ∧ t.status = some .done ∧ t.pc = s.pc + 2 ∧ SameMem s t ∧
      (∀ r : Nibble, t.getV r = if r.toNat ≤ x.toNat then s.memRead (s.i.toNat + r.toNat) else s.getV r) ∧
      (∀ xs : List Nibble, (∀ r : Nibble, r.toNat ≤ x.toNat → r ∈ xs) → ExecFrame xs [.index] s t) ∧
      t.i.toNat = (s.i.toNat + x.toNat + 1) % 65536

/-- R144, R145: a block that FX55 stored comes back with FX65 at the same `I`, into any registers. -/
def Obligations.BlockStoreThenLoadRestoresTheRegisters : Prop :=
  ∀ (x : Nibble) (v : Vector Byte 16) (s : State), Memory.wf s.font s.mem = true →
    ∃ t u, exec (.storeRegs x) s = .next t ∧ exec (.loadRegs x) { t with i := s.i, v := v } = .next u ∧ u.i = t.i ∧
      ∀ r : Nibble, r.toNat ≤ x.toNat → u.getV r = s.getV r

/-- R47: no instruction but FX33 and FX55 changes a byte of memory. -/
def Obligations.OnlyStoresChangeMemory : Prop :=
  ∀ (i : Instr) (s t : State), isStore i = false → exec i s = .next t → SameMem s t

/-! ## Display -/

/-- R150: 00E0 clears every pixel and requests a draw, whatever the framebuffer held. -/
def Obligations.ClearScreenClearsEveryPixel : Prop :=
  ∀ s : State,
    ∃ t, exec .cls s = .next t ∧ t.status = some .done ∧ t.pc = s.pc + 2 ∧ (∀ k : Nat, t.pixel k = false) ∧
      t.drawReq = true ∧ ExecFrame [] [.screen, .drawRequest] s t ∧ SameMem s t

/-- R151, R152: DXYN turns every pixel a set sprite bit falls on and no other, sets `VF` to 1 when one of them was set before and
else to 0, requests a draw on every execution, and changes nothing else. -/
def Obligations.DrawTurnsExactlyTheSpritePixels : Prop :=
  ∀ (x y n : Nibble) (s : State),
    ∃ t, exec (.drw x y n) s = .next t ∧ t.status = some .done ∧ t.pc = s.pc + 2 ∧ t.drawReq = true ∧
      (∀ k : Nat, k < 2048 → (Hits x y n s k → t.pixel k = !s.pixel k) ∧ (¬Hits x y n s k → t.pixel k = s.pixel k)) ∧
      ((∃ k : Nat, k < 2048 ∧ Hits x y n s k ∧ s.pixel k = true) → t.getV vf = 0x01#8) ∧
      ((∀ k : Nat, k < 2048 → Hits x y n s k → s.pixel k = false) → t.getV vf = 0x00#8) ∧
      ExecFrame [vf] [.screen, .drawRequest] s t ∧ SameMem s t

/-- R153: where the flat index puts a sprite bit: in column `s mod 64` of row `(vy + r + s div 64) mod 32`, for `s = vx + c`; and
distinct bits of one sprite fall on distinct pixels (R151 (f)). -/
def Obligations.FlatIndexGeometry : Prop :=
  ∀ (vx vy : Byte) (r c : Nat), c < 8 → r < 15 →
    pixelIndex vx vy r c = 64 * ((vy.toNat + r + (vx.toNat + c) / 64) % 32) + (vx.toNat + c) % 64 ∧
    ∀ r' c' : Nat, c' < 8 → r' < 15 → pixelIndex vx vy r c = pixelIndex vx vy r' c' → r = r' ∧ c = c'

/-- R151, R152: the same sprite drawn twice at the same place leaves the framebuffer as it was, and the second draw collides exactly
when some pixel of the sprite was clear before the first. -/
def Obligations.DrawingTwiceRestoresTheScreen : Prop :=
  ∀ (x y n : Nibble) (s : State), x ≠ vf → y ≠ vf →
    ∃ t u, exec (.drw x y n) s = .next t ∧ exec (.drw x y n) t = .next u ∧ (∀ k : Nat, k < 2048 → u.pixel k = s.pixel k) ∧
      (u.getV vf = 0x01#8 ↔ ∃ k : Nat, k < 2048 ∧ Hits x y n s k ∧ s.pixel k = false)

/-! ## Keypad, timers, inputs -/

/-- R162: FX0A with no key press offered changes nothing and says NEEDS_KEY; with one it stores the code and goes on. -/
def Obligations.KeyWaitHoldsOrStoresTheCode : Prop :=
  ∀ (x : Nibble) (s : State),
    (s.keyPress = none → ∃ t, exec (.ldKey x) s = .next t ∧ t.status = some .needsKey ∧ SameCore s t ∧ SamePorts s t) ∧
    (∀ c : Nibble, s.keyPress = some c →
      ∃ t, exec (.ldKey x) s = .next t ∧ t.status = some .done ∧ t.pc = s.pc + 2 ∧ (t.getV x).toNat = c.toNat ∧
        ExecFrame [x] [] s t ∧ SameMem s t)

/-- R170, R171: FX07 copies `DT` to `V[X]` and FX15 copies `V[X]` to `DT`, both before the tick that ends the cycle. -/
def Obligations.DelayTimerInstructionsCopy : Prop :=
  ∀ (x : Nibble) (s : State),
    (∃ t, exec (.ldFromDt x) s = .next t ∧ t.status = some .done ∧ t.pc = s.pc + 2 ∧ t.getV x = s.dt ∧
      ExecFrame [x] [] s t ∧ SameMem s t ∧ t.endCycle.getV x = s.dt ∧ t.endCycle.dt.toNat = s.dt.toNat - 1) ∧
    (∃ t, exec (.ldToDt x) s = .next t ∧ t.status = some .done ∧ t.pc = s.pc + 2 ∧ t.dt = s.getV x ∧
      ExecFrame [] [.delayTimer] s t ∧ SameMem s t ∧ t.endCycle.dt.toNat = (s.getV x).toNat - 1)

/-- R172, R197: FX18 copies `V[X]` to `ST`; the value n left to run down gives exactly one beep, in the n-th tick counting that of
the loading cycle as the first, and none where n = 0. -/
def Obligations.SoundTimerLoadGivesOneBeep : Prop :=
  ∀ (x : Nibble) (s : State),
    ∃ t, exec (.ldToSt x) s = .next t ∧ t.status = some .done ∧ t.pc = s.pc + 2 ∧ t.st = s.getV x ∧
      ExecFrame [] [.soundTimer] s t ∧ SameMem s t ∧
      ∀ n : Nat, (Nat.iterate State.tick (n + 1) t).beep = some (decide ((s.getV x).toNat = n + 1))

/-- R196: each timer falls by one with every completed cycle, is 0 after as many as its value, and stays there; the two are
independent. -/
def Obligations.TimersRunDownToZeroAndStay : Prop :=
  ∀ (s : State) (n : Nat),
    (Nat.iterate State.tick n s).dt.toNat = s.dt.toNat - n ∧ (Nat.iterate State.tick n s).st.toNat = s.st.toNat - n

/-- R20, R22, R29: no instruction writes `KEY`, none clears `DRAW_REQ`, and only 00E0 and DXYN set it or change a pixel. -/
def Obligations.NoInstructionWritesKeysOrClearsDrawRequest : Prop :=
  ∀ (i : Instr) (s t : State), exec i s = .next t →
    SameKeys s t ∧ (s.drawReq = true → t.drawReq = true) ∧
    (i ≠ .cls → (∀ x y n : Nibble, i ≠ .drw x y n) → t.drawReq = s.drawReq ∧ SameScreen s t)

/-- R34: `key_press` has no effect in an execution of any instruction but FX0A. -/
def Obligations.KeyPressReachesOnlyFx0a : Prop :=
  ∀ (i : Instr) (s t : State) (k : Option Nibble), (∀ x : Nibble, i ≠ .ldKey x) → exec i s = .next t →
    exec i (s.present k s.randByte) = .next (t.present k t.randByte)

/-- R37: `rand_byte` has no effect in an execution of any instruction but CXKK. -/
def Obligations.RandomByteReachesOnlyCxkk : Prop :=
  ∀ (i : Instr) (s t : State) (r : Byte), (∀ (x : Nibble) (kk : Byte), i ≠ .rnd x kk) → exec i s = .next t →
    exec i (s.present s.keyPress r) = .next (t.present t.keyPress r)

/-! ## The host's moves -/

/-- R32, R213: the loader copies an image of at most 3584 bytes verbatim from 0x200 up, before the first cycle, and nothing
else changes. -/
def Obligations.LoadCopiesTheImage : Prop :=
  ∀ (s : State) (rom : List Byte) (rest : List HostMove), s.host = .load rom :: rest → Memory.wf s.font s.mem = true →
    s.status = none → rom.length ≤ 3584 →
    ∃ t, step s = .next t ∧ ProgramPresent rom t ∧
      SameMemBut 0x200 rom.length s t ∧ FrameBut [] [] s t ∧ t.pc = s.pc ∧ t.status = none ∧ t.host = rest

/-- The model's stops, both on a load the spec says the loader never makes (log entry 5): a load after the first cycle faults, and
one of more than 3584 bytes before it is refused. -/
def Obligations.LoadsOutsideTheContractStop : Prop :=
  ∀ (s : State) (rom : List Byte) (rest : List HostMove), s.host = .load rom :: rest →
    (s.status ≠ none → step s = .fault .loadAfterFirstCycle) ∧
    (s.status = none → 3584 < rom.length → step s = .refused .romTooLong)

/-- R33, R35: the input source's write sets the sixteen key flags, the renderer's clear takes the draw request away, and neither
changes anything else. -/
def Obligations.KeyAndFrameMovesChangeOnlyTheirs : Prop :=
  ∀ (s : State) (rest : List HostMove),
    (∀ keys : Vector Bool 16, s.host = .writeKeys keys :: rest →
      ∃ t, step s = .next t ∧ (∀ k : Fin 16, t.key[k] = keys[k]) ∧ SameRegsBut [] s t ∧ t.i = s.i ∧ t.pc = s.pc ∧
        SameStack s t ∧ t.dt = s.dt ∧ t.st = s.st ∧ SameScreen s t ∧ t.drawReq = s.drawReq ∧ SameMem s t ∧
        SameFaultRecord s t ∧ t.host = rest) ∧
    (s.host = .consumeFrame :: rest →
      ∃ t, step s = .next t ∧ t.drawReq = false ∧ FrameBut [] [.drawRequest] s t ∧ SameMem s t ∧ t.pc = s.pc ∧ t.host = rest)

/-- R214: for a given `FONT` and an image that fits, the launch state is the reset state with byte k of the image at 0x200 + k;
`HALTED` = 0, `PcInvariant`, `FontIntact`, `SP` = 0 and the program's bytes present all hold in it. -/
def Obligations.LaunchIsResetWithTheImage : Prop :=
  ∀ (font : Config.Font) (rom : List Byte), rom.length ≤ 3584 →
    ProgramPresent rom (launch font rom) ∧ SameMemBut 0x200 rom.length (State.resetWith font) (launch font rom) ∧
    FrameBut [] [] (State.resetWith font) (launch font rom) ∧ (launch font rom).pc = (State.resetWith font).pc ∧
    (launch font rom).font = font ∧ Running (launch font rom) ∧ PcInvariant (launch font rom) ∧
    FontIntact (launch font rom) ∧ StackEmpty (launch font rom) ∧ Inv (launch font rom)

/-- R211, R213: the first cycle after a launch fetches the image's first two bytes, high byte first. -/
def Obligations.LaunchFetchesTheFirstTwoBytes : Prop :=
  ∀ (font : Config.Font) (hi lo : Byte) (rest : List Byte), rest.length ≤ 3582 →
    (launch font (hi :: lo :: rest)).fetch16 (launch font (hi :: lo :: rest)).pc = hi ++ lo ∧
    (launch font (hi :: lo :: rest)).pc = 0x0200#16

/-! ## Invariants -/

/-- No instruction stops: `exec` answers a next state for every instruction in every state (R180, R189). -/
def Obligations.NoInstructionStops : Prop := ∀ (i : Instr) (s : State), ∃ t, exec i s = .next t

/-- R4, R27: `FONT` is a parameter: no step changes it, a reset included. -/
def Obligations.NoStepChangesTheFontParameter : Prop := ∀ s t : State, step s = .next t → t.font = s.font

/-- Every step keeps the canonical form of memory. -/
def Obligations.StepKeepsMemoryCanonical : Prop :=
  ∀ s t : State, Memory.wf s.font s.mem = true → step s = .next t → Memory.wf t.font t.mem = true

/-- Every step keeps the invariant: memory canonical, the fault record true (R25, R26, R184), the outputs in agreement with the
state (R36, R38). -/
def Obligations.StepKeepsTheInvariant : Prop := ∀ s t : State, Inv s → step s = .next t → Inv t
end

