-- ==== Sys2Proof/Laws/Decode.lean ====
section
/-! SUPPORT. Laws of opcode words: the fields of a word as numbers, the fields of an assembled word, and a word put together
again from its fields (spec/30_encoding.md R61, R62). -/

namespace Sys2Proof

theorem append_toNat {m n : Nat} (a : BitVec m) (b : BitVec n) : (a ++ b).toNat = a.toNat * 2 ^ n + b.toNat := by
  rw [BitVec.toNat_append, Nat.shiftLeft_eq, Nat.mul_comm, Nat.two_pow_add_eq_or_of_lt b.isLt]

theorem extract_toNat {w : Nat} (lo n : Nat) (a : BitVec w) : (a.extractLsb' lo n).toNat = a.toNat / 2 ^ lo % 2 ^ n := by
  rw [BitVec.extractLsb'_toNat, Nat.shiftRight_eq_div_pow]

theorem fieldOp_toNat (w : Word) : (fieldOp w).toNat = w.toNat / 4096 % 16 := extract_toNat _ _ _
theorem fieldX_toNat (w : Word) : (fieldX w).toNat = w.toNat / 256 % 16 := extract_toNat _ _ _
theorem fieldY_toNat (w : Word) : (fieldY w).toNat = w.toNat / 16 % 16 := extract_toNat _ _ _
theorem fieldN_toNat (w : Word) : (fieldN w).toNat = w.toNat % 16 := (extract_toNat _ _ _).trans (by simp)
theorem fieldKK_toNat (w : Word) : (fieldKK w).toNat = w.toNat % 256 := (extract_toNat _ _ _).trans (by simp)
theorem fieldNNN_toNat (w : Word) : (fieldNNN w).toNat = w.toNat % 4096 := (extract_toNat _ _ _).trans (by simp)

theorem wordNNN_toNat (op : Nibble) (nnn : Addr12) : (wordNNN op nnn).toNat = op.toNat * 4096 + nnn.toNat := append_toNat _ _
theorem wordXKK_toNat (op x : Nibble) (kk : Byte) :
    (wordXKK op x kk).toNat = op.toNat * 4096 + (x.toNat * 256 + kk.toNat) := by
  rw [wordXKK, append_toNat, append_toNat]; rfl
theorem wordXYN_toNat (op x y n : Nibble) :
    (wordXYN op x y n).toNat = op.toNat * 4096 + (x.toNat * 256 + (y.toNat * 16 + n.toNat)) := by
  rw [wordXYN, append_toNat, append_toNat, append_toNat]; rfl
theorem wordOfBytes_toNat (hi lo : Byte) : (wordOfBytes hi lo).toNat = hi.toNat * 256 + lo.toNat := append_toNat _ _

/-! ### Fields of an assembled word -/

@[simp] theorem fieldOp_wordNNN (op : Nibble) (nnn : Addr12) : fieldOp (wordNNN op nnn) = op := by
  have := op.isLt; have := nnn.isLt
  apply BitVec.eq_of_toNat_eq; rw [fieldOp_toNat, wordNNN_toNat]; omega

@[simp] theorem fieldNNN_wordNNN (op : Nibble) (nnn : Addr12) : fieldNNN (wordNNN op nnn) = nnn := by
  have := op.isLt; have := nnn.isLt
  apply BitVec.eq_of_toNat_eq; rw [fieldNNN_toNat, wordNNN_toNat]; omega

@[simp] theorem fieldOp_wordXKK (op x : Nibble) (kk : Byte) : fieldOp (wordXKK op x kk) = op := by
  have := op.isLt; have := x.isLt; have := kk.isLt
  apply BitVec.eq_of_toNat_eq; rw [fieldOp_toNat, wordXKK_toNat]; omega

@[simp] theorem fieldX_wordXKK (op x : Nibble) (kk : Byte) : fieldX (wordXKK op x kk) = x := by
  have := op.isLt; have := x.isLt; have := kk.isLt
  apply BitVec.eq_of_toNat_eq; rw [fieldX_toNat, wordXKK_toNat]; omega

@[simp] theorem fieldKK_wordXKK (op x : Nibble) (kk : Byte) : fieldKK (wordXKK op x kk) = kk := by
  have := op.isLt; have := x.isLt; have := kk.isLt
  apply BitVec.eq_of_toNat_eq; rw [fieldKK_toNat, wordXKK_toNat]; omega

@[simp] theorem fieldOp_wordXYN (op x y n : Nibble) : fieldOp (wordXYN op x y n) = op := by
  have := op.isLt; have := x.isLt; have := y.isLt; have := n.isLt
  apply BitVec.eq_of_toNat_eq; rw [fieldOp_toNat, wordXYN_toNat]; omega

@[simp] theorem fieldX_wordXYN (op x y n : Nibble) : fieldX (wordXYN op x y n) = x := by
  have := op.isLt; have := x.isLt; have := y.isLt; have := n.isLt
  apply BitVec.eq_of_toNat_eq; rw [fieldX_toNat, wordXYN_toNat]; omega

@[simp] theorem fieldY_wordXYN (op x y n : Nibble) : fieldY (wordXYN op x y n) = y := by
  have := op.isLt; have := x.isLt; have := y.isLt; have := n.isLt
  apply BitVec.eq_of_toNat_eq; rw [fieldY_toNat, wordXYN_toNat]; omega

@[simp] theorem fieldN_wordXYN (op x y n : Nibble) : fieldN (wordXYN op x y n) = n := by
  have := op.isLt; have := x.isLt; have := y.isLt; have := n.isLt
  apply BitVec.eq_of_toNat_eq; rw [fieldN_toNat, wordXYN_toNat]; omega

/-! ### A word put together again from its fields -/

theorem wordNNN_fields (w : Word) : wordNNN (fieldOp w) (fieldNNN w) = w := by
  have := w.isLt
  apply BitVec.eq_of_toNat_eq; rw [wordNNN_toNat, fieldOp_toNat, fieldNNN_toNat]; omega

theorem wordXKK_fields (w : Word) : wordXKK (fieldOp w) (fieldX w) (fieldKK w) = w := by
  have := w.isLt
  apply BitVec.eq_of_toNat_eq; rw [wordXKK_toNat, fieldOp_toNat, fieldX_toNat, fieldKK_toNat]; omega

theorem wordXYN_fields (w : Word) : wordXYN (fieldOp w) (fieldX w) (fieldY w) (fieldN w) = w := by
  have := w.isLt
  apply BitVec.eq_of_toNat_eq; rw [wordXYN_toNat, fieldOp_toNat, fieldX_toNat, fieldY_toNat, fieldN_toNat]; omega

/-- The two bytes of a word make the word (R44). -/
@[simp] theorem wordOfBytes_bytesOfWord (w : Word) : wordOfBytes (bytesOfWord w).1 (bytesOfWord w).2 = w := by
  have := w.isLt
  apply BitVec.eq_of_toNat_eq
  rw [wordOfBytes_toNat, bytesOfWord, extract_toNat, extract_toNat]; omega

/-- The bytes of the word two bytes make are those bytes (R44). -/
@[simp] theorem bytesOfWord_wordOfBytes (hi lo : Byte) : bytesOfWord (wordOfBytes hi lo) = (hi, lo) := by
  have := hi.isLt; have := lo.isLt
  refine Prod.ext (BitVec.eq_of_toNat_eq ?_) (BitVec.eq_of_toNat_eq ?_) <;>
    simp only [bytesOfWord, extract_toNat, wordOfBytes_toNat] <;> omega

/-- Everything the decoder can answer (R70): an instruction of the two-level dispatch, or a rejection of the word by name. -/
theorem decodeWord_cases (w : Word) :
    (∃ i, decodeFields w = some i ∧ decodeWord w = .ok i) ∨
      (decodeFields w = none ∧ decodeWord w = .error (.unassigned w)) := by
  unfold decodeWord
  cases decodeFields w with
  | some i => exact .inl ⟨i, rfl, rfl⟩
  | none => exact .inr ⟨rfl, rfl⟩

end Sys2Proof
end

