-- ==== Sys2Proof/Laws/State.lean ====
section
/-! SUPPORT. One lemma per field (and per named read) per update of the state, true by `rfl`, so that no later proof unfolds a
record update. -/

namespace Sys2Proof.Machine

/-! ### `State.setV` -/

@[simp] theorem setV_v (s : State) (x : Nibble) (b : Byte) : (s.setV x b).v = s.v.set x.toNat b x.isLt := rfl
@[simp] theorem setV_i (s : State) (x : Nibble) (b : Byte) : (s.setV x b).i = s.i := rfl
@[simp] theorem setV_pc (s : State) (x : Nibble) (b : Byte) : (s.setV x b).pc = s.pc := rfl
@[simp] theorem setV_stack (s : State) (x : Nibble) (b : Byte) : (s.setV x b).stack = s.stack := rfl
@[simp] theorem setV_sp (s : State) (x : Nibble) (b : Byte) : (s.setV x b).sp = s.sp := rfl
@[simp] theorem setV_dt (s : State) (x : Nibble) (b : Byte) : (s.setV x b).dt = s.dt := rfl
@[simp] theorem setV_st (s : State) (x : Nibble) (b : Byte) : (s.setV x b).st = s.st := rfl
@[simp] theorem setV_key (s : State) (x : Nibble) (b : Byte) : (s.setV x b).key = s.key := rfl
@[simp] theorem setV_fb (s : State) (x : Nibble) (b : Byte) : (s.setV x b).fb = s.fb := rfl
@[simp] theorem setV_drawReq (s : State) (x : Nibble) (b : Byte) : (s.setV x b).drawReq = s.drawReq := rfl
@[simp] theorem setV_mem (s : State) (x : Nibble) (b : Byte) : (s.setV x b).mem = s.mem := rfl
@[simp] theorem setV_halted (s : State) (x : Nibble) (b : Byte) : (s.setV x b).halted = s.halted := rfl
@[simp] theorem setV_faultKind (s : State) (x : Nibble) (b : Byte) : (s.setV x b).faultKind = s.faultKind := rfl
@[simp] theorem setV_faultOpcode (s : State) (x : Nibble) (b : Byte) : (s.setV x b).faultOpcode = s.faultOpcode := rfl
@[simp] theorem setV_faultPc (s : State) (x : Nibble) (b : Byte) : (s.setV x b).faultPc = s.faultPc := rfl
@[simp] theorem setV_status (s : State) (x : Nibble) (b : Byte) : (s.setV x b).status = s.status := rfl
@[simp] theorem setV_beep (s : State) (x : Nibble) (b : Byte) : (s.setV x b).beep = s.beep := rfl
@[simp] theorem setV_keyPress (s : State) (x : Nibble) (b : Byte) : (s.setV x b).keyPress = s.keyPress := rfl
@[simp] theorem setV_randByte (s : State) (x : Nibble) (b : Byte) : (s.setV x b).randByte = s.randByte := rfl
@[simp] theorem setV_font (s : State) (x : Nibble) (b : Byte) : (s.setV x b).font = s.font := rfl
@[simp] theorem setV_host (s : State) (x : Nibble) (b : Byte) : (s.setV x b).host = s.host := rfl
@[simp] theorem setV_draws (s : State) (x : Nibble) (b : Byte) : (s.setV x b).draws = s.draws := rfl
@[simp] theorem setV_memRead (s : State) (x : Nibble) (b : Byte) (q : Nat) : (s.setV x b).memRead q = s.memRead q := rfl
@[simp] theorem setV_pixel (s : State) (x : Nibble) (b : Byte) (q : Nat) : (s.setV x b).pixel q = s.pixel q := rfl

/-! ### `State.setFlagThenV` -/

@[simp] theorem setFlagThenV_i (s : State) (c : Bool) (x : Nibble) (b : Byte) : (s.setFlagThenV c x b).i = s.i := rfl
@[simp] theorem setFlagThenV_pc (s : State) (c : Bool) (x : Nibble) (b : Byte) : (s.setFlagThenV c x b).pc = s.pc := rfl
@[simp] theorem setFlagThenV_stack (s : State) (c : Bool) (x : Nibble) (b : Byte) : (s.setFlagThenV c x b).stack = s.stack := rfl
@[simp] theorem setFlagThenV_sp (s : State) (c : Bool) (x : Nibble) (b : Byte) : (s.setFlagThenV c x b).sp = s.sp := rfl
@[simp] theorem setFlagThenV_dt (s : State) (c : Bool) (x : Nibble) (b : Byte) : (s.setFlagThenV c x b).dt = s.dt := rfl
@[simp] theorem setFlagThenV_st (s : State) (c : Bool) (x : Nibble) (b : Byte) : (s.setFlagThenV c x b).st = s.st := rfl
@[simp] theorem setFlagThenV_key (s : State) (c : Bool) (x : Nibble) (b : Byte) : (s.setFlagThenV c x b).key = s.key := rfl
@[simp] theorem setFlagThenV_fb (s : State) (c : Bool) (x : Nibble) (b : Byte) : (s.setFlagThenV c x b).fb = s.fb := rfl
@[simp] theorem setFlagThenV_drawReq (s : State) (c : Bool) (x : Nibble) (b : Byte) : (s.setFlagThenV c x b).drawReq = s.drawReq := rfl
@[simp] theorem setFlagThenV_mem (s : State) (c : Bool) (x : Nibble) (b : Byte) : (s.setFlagThenV c x b).mem = s.mem := rfl
@[simp] theorem setFlagThenV_halted (s : State) (c : Bool) (x : Nibble) (b : Byte) : (s.setFlagThenV c x b).halted = s.halted := rfl
@[simp] theorem setFlagThenV_faultKind (s : State) (c : Bool) (x : Nibble) (b : Byte) : (s.setFlagThenV c x b).faultKind = s.faultKind := rfl
@[simp] theorem setFlagThenV_faultOpcode (s : State) (c : Bool) (x : Nibble) (b : Byte) : (s.setFlagThenV c x b).faultOpcode = s.faultOpcode := rfl
@[simp] theorem setFlagThenV_faultPc (s : State) (c : Bool) (x : Nibble) (b : Byte) : (s.setFlagThenV c x b).faultPc = s.faultPc := rfl
@[simp] theorem setFlagThenV_status (s : State) (c : Bool) (x : Nibble) (b : Byte) : (s.setFlagThenV c x b).status = s.status := rfl
@[simp] theorem setFlagThenV_beep (s : State) (c : Bool) (x : Nibble) (b : Byte) : (s.setFlagThenV c x b).beep = s.beep := rfl
@[simp] theorem setFlagThenV_keyPress (s : State) (c : Bool) (x : Nibble) (b : Byte) : (s.setFlagThenV c x b).keyPress = s.keyPress := rfl
@[simp] theorem setFlagThenV_randByte (s : State) (c : Bool) (x : Nibble) (b : Byte) : (s.setFlagThenV c x b).randByte = s.randByte := rfl
@[simp] theorem setFlagThenV_font (s : State) (c : Bool) (x : Nibble) (b : Byte) : (s.setFlagThenV c x b).font = s.font := rfl
@[simp] theorem setFlagThenV_host (s : State) (c : Bool) (x : Nibble) (b : Byte) : (s.setFlagThenV c x b).host = s.host := rfl
@[simp] theorem setFlagThenV_draws (s : State) (c : Bool) (x : Nibble) (b : Byte) : (s.setFlagThenV c x b).draws = s.draws := rfl
@[simp] theorem setFlagThenV_memRead (s : State) (c : Bool) (x : Nibble) (b : Byte) (q : Nat) : (s.setFlagThenV c x b).memRead q = s.memRead q := rfl
@[simp] theorem setFlagThenV_pixel (s : State) (c : Bool) (x : Nibble) (b : Byte) (q : Nat) : (s.setFlagThenV c x b).pixel q = s.pixel q := rfl

/-! ### `State.setI` -/

@[simp] theorem setI_v (s : State) (w : Word) : (s.setI w).v = s.v := rfl
@[simp] theorem setI_i (s : State) (w : Word) : (s.setI w).i = w := rfl
@[simp] theorem setI_pc (s : State) (w : Word) : (s.setI w).pc = s.pc := rfl
@[simp] theorem setI_stack (s : State) (w : Word) : (s.setI w).stack = s.stack := rfl
@[simp] theorem setI_sp (s : State) (w : Word) : (s.setI w).sp = s.sp := rfl
@[simp] theorem setI_dt (s : State) (w : Word) : (s.setI w).dt = s.dt := rfl
@[simp] theorem setI_st (s : State) (w : Word) : (s.setI w).st = s.st := rfl
@[simp] theorem setI_key (s : State) (w : Word) : (s.setI w).key = s.key := rfl
@[simp] theorem setI_fb (s : State) (w : Word) : (s.setI w).fb = s.fb := rfl
@[simp] theorem setI_drawReq (s : State) (w : Word) : (s.setI w).drawReq = s.drawReq := rfl
@[simp] theorem setI_mem (s : State) (w : Word) : (s.setI w).mem = s.mem := rfl
@[simp] theorem setI_halted (s : State) (w : Word) : (s.setI w).halted = s.halted := rfl
@[simp] theorem setI_faultKind (s : State) (w : Word) : (s.setI w).faultKind = s.faultKind := rfl
@[simp] theorem setI_faultOpcode (s : State) (w : Word) : (s.setI w).faultOpcode = s.faultOpcode := rfl
@[simp] theorem setI_faultPc (s : State) (w : Word) : (s.setI w).faultPc = s.faultPc := rfl
@[simp] theorem setI_status (s : State) (w : Word) : (s.setI w).status = s.status := rfl
@[simp] theorem setI_beep (s : State) (w : Word) : (s.setI w).beep = s.beep := rfl
@[simp] theorem setI_keyPress (s : State) (w : Word) : (s.setI w).keyPress = s.keyPress := rfl
@[simp] theorem setI_randByte (s : State) (w : Word) : (s.setI w).randByte = s.randByte := rfl
@[simp] theorem setI_font (s : State) (w : Word) : (s.setI w).font = s.font := rfl
@[simp] theorem setI_host (s : State) (w : Word) : (s.setI w).host = s.host := rfl
@[simp] theorem setI_draws (s : State) (w : Word) : (s.setI w).draws = s.draws := rfl
@[simp] theorem setI_getV (s : State) (w : Word) (q : Nibble) : (s.setI w).getV q = s.getV q := rfl
@[simp] theorem setI_memRead (s : State) (w : Word) (q : Nat) : (s.setI w).memRead q = s.memRead q := rfl
@[simp] theorem setI_pixel (s : State) (w : Word) (q : Nat) : (s.setI w).pixel q = s.pixel q := rfl

/-! ### `State.setPc` -/

@[simp] theorem setPc_v (s : State) (w : Word) : (s.setPc w).v = s.v := rfl
@[simp] theorem setPc_i (s : State) (w : Word) : (s.setPc w).i = s.i := rfl
@[simp] theorem setPc_pc (s : State) (w : Word) : (s.setPc w).pc = w := rfl
@[simp] theorem setPc_stack (s : State) (w : Word) : (s.setPc w).stack = s.stack := rfl
@[simp] theorem setPc_sp (s : State) (w : Word) : (s.setPc w).sp = s.sp := rfl
@[simp] theorem setPc_dt (s : State) (w : Word) : (s.setPc w).dt = s.dt := rfl
@[simp] theorem setPc_st (s : State) (w : Word) : (s.setPc w).st = s.st := rfl
@[simp] theorem setPc_key (s : State) (w : Word) : (s.setPc w).key = s.key := rfl
@[simp] theorem setPc_fb (s : State) (w : Word) : (s.setPc w).fb = s.fb := rfl
@[simp] theorem setPc_drawReq (s : State) (w : Word) : (s.setPc w).drawReq = s.drawReq := rfl
@[simp] theorem setPc_mem (s : State) (w : Word) : (s.setPc w).mem = s.mem := rfl
@[simp] theorem setPc_halted (s : State) (w : Word) : (s.setPc w).halted = s.halted := rfl
@[simp] theorem setPc_faultKind (s : State) (w : Word) : (s.setPc w).faultKind = s.faultKind := rfl
@[simp] theorem setPc_faultOpcode (s : State) (w : Word) : (s.setPc w).faultOpcode = s.faultOpcode := rfl
@[simp] theorem setPc_faultPc (s : State) (w : Word) : (s.setPc w).faultPc = s.faultPc := rfl
@[simp] theorem setPc_status (s : State) (w : Word) : (s.setPc w).status = s.status := rfl
@[simp] theorem setPc_beep (s : State) (w : Word) : (s.setPc w).beep = s.beep := rfl
@[simp] theorem setPc_keyPress (s : State) (w : Word) : (s.setPc w).keyPress = s.keyPress := rfl
@[simp] theorem setPc_randByte (s : State) (w : Word) : (s.setPc w).randByte = s.randByte := rfl
@[simp] theorem setPc_font (s : State) (w : Word) : (s.setPc w).font = s.font := rfl
@[simp] theorem setPc_host (s : State) (w : Word) : (s.setPc w).host = s.host := rfl
@[simp] theorem setPc_draws (s : State) (w : Word) : (s.setPc w).draws = s.draws := rfl
@[simp] theorem setPc_getV (s : State) (w : Word) (q : Nibble) : (s.setPc w).getV q = s.getV q := rfl
@[simp] theorem setPc_memRead (s : State) (w : Word) (q : Nat) : (s.setPc w).memRead q = s.memRead q := rfl
@[simp] theorem setPc_pixel (s : State) (w : Word) (q : Nat) : (s.setPc w).pixel q = s.pixel q := rfl

/-! ### `State.advance` -/

@[simp] theorem advance_v (s : State) : s.advance.v = s.v := rfl
@[simp] theorem advance_i (s : State) : s.advance.i = s.i := rfl
@[simp] theorem advance_pc (s : State) : s.advance.pc = s.pc + 2 := rfl
@[simp] theorem advance_stack (s : State) : s.advance.stack = s.stack := rfl
@[simp] theorem advance_sp (s : State) : s.advance.sp = s.sp := rfl
@[simp] theorem advance_dt (s : State) : s.advance.dt = s.dt := rfl
@[simp] theorem advance_st (s : State) : s.advance.st = s.st := rfl
@[simp] theorem advance_key (s : State) : s.advance.key = s.key := rfl
@[simp] theorem advance_fb (s : State) : s.advance.fb = s.fb := rfl
@[simp] theorem advance_drawReq (s : State) : s.advance.drawReq = s.drawReq := rfl
@[simp] theorem advance_mem (s : State) : s.advance.mem = s.mem := rfl
@[simp] theorem advance_halted (s : State) : s.advance.halted = s.halted := rfl
@[simp] theorem advance_faultKind (s : State) : s.advance.faultKind = s.faultKind := rfl
@[simp] theorem advance_faultOpcode (s : State) : s.advance.faultOpcode = s.faultOpcode := rfl
@[simp] theorem advance_faultPc (s : State) : s.advance.faultPc = s.faultPc := rfl
@[simp] theorem advance_status (s : State) : s.advance.status = s.status := rfl
@[simp] theorem advance_beep (s : State) : s.advance.beep = s.beep := rfl
@[simp] theorem advance_keyPress (s : State) : s.advance.keyPress = s.keyPress := rfl
@[simp] theorem advance_randByte (s : State) : s.advance.randByte = s.randByte := rfl
@[simp] theorem advance_font (s : State) : s.advance.font = s.font := rfl
@[simp] theorem advance_host (s : State) : s.advance.host = s.host := rfl
@[simp] theorem advance_draws (s : State) : s.advance.draws = s.draws := rfl
@[simp] theorem advance_getV (s : State) (q : Nibble) : s.advance.getV q = s.getV q := rfl
@[simp] theorem advance_memRead (s : State) (q : Nat) : s.advance.memRead q = s.memRead q := rfl
@[simp] theorem advance_pixel (s : State) (q : Nat) : s.advance.pixel q = s.pixel q := rfl

/-! ### `State.skipIf` -/

@[simp] theorem skipIf_v (s : State) (c : Bool) : (s.skipIf c).v = s.v := rfl
@[simp] theorem skipIf_i (s : State) (c : Bool) : (s.skipIf c).i = s.i := rfl
@[simp] theorem skipIf_pc (s : State) (c : Bool) : (s.skipIf c).pc = if c then s.pc + 4 else s.pc + 2 := rfl
@[simp] theorem skipIf_stack (s : State) (c : Bool) : (s.skipIf c).stack = s.stack := rfl
@[simp] theorem skipIf_sp (s : State) (c : Bool) : (s.skipIf c).sp = s.sp := rfl
@[simp] theorem skipIf_dt (s : State) (c : Bool) : (s.skipIf c).dt = s.dt := rfl
@[simp] theorem skipIf_st (s : State) (c : Bool) : (s.skipIf c).st = s.st := rfl
@[simp] theorem skipIf_key (s : State) (c : Bool) : (s.skipIf c).key = s.key := rfl
@[simp] theorem skipIf_fb (s : State) (c : Bool) : (s.skipIf c).fb = s.fb := rfl
@[simp] theorem skipIf_drawReq (s : State) (c : Bool) : (s.skipIf c).drawReq = s.drawReq := rfl
@[simp] theorem skipIf_mem (s : State) (c : Bool) : (s.skipIf c).mem = s.mem := rfl
@[simp] theorem skipIf_halted (s : State) (c : Bool) : (s.skipIf c).halted = s.halted := rfl
@[simp] theorem skipIf_faultKind (s : State) (c : Bool) : (s.skipIf c).faultKind = s.faultKind := rfl
@[simp] theorem skipIf_faultOpcode (s : State) (c : Bool) : (s.skipIf c).faultOpcode = s.faultOpcode := rfl
@[simp] theorem skipIf_faultPc (s : State) (c : Bool) : (s.skipIf c).faultPc = s.faultPc := rfl
@[simp] theorem skipIf_status (s : State) (c : Bool) : (s.skipIf c).status = s.status := rfl
@[simp] theorem skipIf_beep (s : State) (c : Bool) : (s.skipIf c).beep = s.beep := rfl
@[simp] theorem skipIf_keyPress (s : State) (c : Bool) : (s.skipIf c).keyPress = s.keyPress := rfl
@[simp] theorem skipIf_randByte (s : State) (c : Bool) : (s.skipIf c).randByte = s.randByte := rfl
@[simp] theorem skipIf_font (s : State) (c : Bool) : (s.skipIf c).font = s.font := rfl
@[simp] theorem skipIf_host (s : State) (c : Bool) : (s.skipIf c).host = s.host := rfl
@[simp] theorem skipIf_draws (s : State) (c : Bool) : (s.skipIf c).draws = s.draws := rfl
@[simp] theorem skipIf_getV (s : State) (c : Bool) (q : Nibble) : (s.skipIf c).getV q = s.getV q := rfl
@[simp] theorem skipIf_memRead (s : State) (c : Bool) (q : Nat) : (s.skipIf c).memRead q = s.memRead q := rfl
@[simp] theorem skipIf_pixel (s : State) (c : Bool) (q : Nat) : (s.skipIf c).pixel q = s.pixel q := rfl

/-! ### `State.setDt` -/

@[simp] theorem setDt_v (s : State) (b : Byte) : (s.setDt b).v = s.v := rfl
@[simp] theorem setDt_i (s : State) (b : Byte) : (s.setDt b).i = s.i := rfl
@[simp] theorem setDt_pc (s : State) (b : Byte) : (s.setDt b).pc = s.pc := rfl
@[simp] theorem setDt_stack (s : State) (b : Byte) : (s.setDt b).stack = s.stack := rfl
@[simp] theorem setDt_sp (s : State) (b : Byte) : (s.setDt b).sp = s.sp := rfl
@[simp] theorem setDt_dt (s : State) (b : Byte) : (s.setDt b).dt = b := rfl
@[simp] theorem setDt_st (s : State) (b : Byte) : (s.setDt b).st = s.st := rfl
@[simp] theorem setDt_key (s : State) (b : Byte) : (s.setDt b).key = s.key := rfl
@[simp] theorem setDt_fb (s : State) (b : Byte) : (s.setDt b).fb = s.fb := rfl
@[simp] theorem setDt_drawReq (s : State) (b : Byte) : (s.setDt b).drawReq = s.drawReq := rfl
@[simp] theorem setDt_mem (s : State) (b : Byte) : (s.setDt b).mem = s.mem := rfl
@[simp] theorem setDt_halted (s : State) (b : Byte) : (s.setDt b).halted = s.halted := rfl
@[simp] theorem setDt_faultKind (s : State) (b : Byte) : (s.setDt b).faultKind = s.faultKind := rfl
@[simp] theorem setDt_faultOpcode (s : State) (b : Byte) : (s.setDt b).faultOpcode = s.faultOpcode := rfl
@[simp] theorem setDt_faultPc (s : State) (b : Byte) : (s.setDt b).faultPc = s.faultPc := rfl
@[simp] theorem setDt_status (s : State) (b : Byte) : (s.setDt b).status = s.status := rfl
@[simp] theorem setDt_beep (s : State) (b : Byte) : (s.setDt b).beep = s.beep := rfl
@[simp] theorem setDt_keyPress (s : State) (b : Byte) : (s.setDt b).keyPress = s.keyPress := rfl
@[simp] theorem setDt_randByte (s : State) (b : Byte) : (s.setDt b).randByte = s.randByte := rfl
@[simp] theorem setDt_font (s : State) (b : Byte) : (s.setDt b).font = s.font := rfl
@[simp] theorem setDt_host (s : State) (b : Byte) : (s.setDt b).host = s.host := rfl
@[simp] theorem setDt_draws (s : State) (b : Byte) : (s.setDt b).draws = s.draws := rfl
@[simp] theorem setDt_getV (s : State) (b : Byte) (q : Nibble) : (s.setDt b).getV q = s.getV q := rfl
@[simp] theorem setDt_memRead (s : State) (b : Byte) (q : Nat) : (s.setDt b).memRead q = s.memRead q := rfl
@[simp] theorem setDt_pixel (s : State) (b : Byte) (q : Nat) : (s.setDt b).pixel q = s.pixel q := rfl

/-! ### `State.setSt` -/

@[simp] theorem setSt_v (s : State) (b : Byte) : (s.setSt b).v = s.v := rfl
@[simp] theorem setSt_i (s : State) (b : Byte) : (s.setSt b).i = s.i := rfl
@[simp] theorem setSt_pc (s : State) (b : Byte) : (s.setSt b).pc = s.pc := rfl
@[simp] theorem setSt_stack (s : State) (b : Byte) : (s.setSt b).stack = s.stack := rfl
@[simp] theorem setSt_sp (s : State) (b : Byte) : (s.setSt b).sp = s.sp := rfl
@[simp] theorem setSt_dt (s : State) (b : Byte) : (s.setSt b).dt = s.dt := rfl
@[simp] theorem setSt_st (s : State) (b : Byte) : (s.setSt b).st = b := rfl
@[simp] theorem setSt_key (s : State) (b : Byte) : (s.setSt b).key = s.key := rfl
@[simp] theorem setSt_fb (s : State) (b : Byte) : (s.setSt b).fb = s.fb := rfl
@[simp] theorem setSt_drawReq (s : State) (b : Byte) : (s.setSt b).drawReq = s.drawReq := rfl
@[simp] theorem setSt_mem (s : State) (b : Byte) : (s.setSt b).mem = s.mem := rfl
@[simp] theorem setSt_halted (s : State) (b : Byte) : (s.setSt b).halted = s.halted := rfl
@[simp] theorem setSt_faultKind (s : State) (b : Byte) : (s.setSt b).faultKind = s.faultKind := rfl
@[simp] theorem setSt_faultOpcode (s : State) (b : Byte) : (s.setSt b).faultOpcode = s.faultOpcode := rfl
@[simp] theorem setSt_faultPc (s : State) (b : Byte) : (s.setSt b).faultPc = s.faultPc := rfl
@[simp] theorem setSt_status (s : State) (b : Byte) : (s.setSt b).status = s.status := rfl
@[simp] theorem setSt_beep (s : State) (b : Byte) : (s.setSt b).beep = s.beep := rfl
@[simp] theorem setSt_keyPress (s : State) (b : Byte) : (s.setSt b).keyPress = s.keyPress := rfl
@[simp] theorem setSt_randByte (s : State) (b : Byte) : (s.setSt b).randByte = s.randByte := rfl
@[simp] theorem setSt_font (s : State) (b : Byte) : (s.setSt b).font = s.font := rfl
@[simp] theorem setSt_host (s : State) (b : Byte) : (s.setSt b).host = s.host := rfl
@[simp] theorem setSt_draws (s : State) (b : Byte) : (s.setSt b).draws = s.draws := rfl
@[simp] theorem setSt_getV (s : State) (b : Byte) (q : Nibble) : (s.setSt b).getV q = s.getV q := rfl
@[simp] theorem setSt_memRead (s : State) (b : Byte) (q : Nat) : (s.setSt b).memRead q = s.memRead q := rfl
@[simp] theorem setSt_pixel (s : State) (b : Byte) (q : Nat) : (s.setSt b).pixel q = s.pixel q := rfl

/-! ### `State.setEntry` -/

@[simp] theorem setEntry_v (s : State) (k : Fin 16) (w : Word) : (s.setEntry k w).v = s.v := rfl
@[simp] theorem setEntry_i (s : State) (k : Fin 16) (w : Word) : (s.setEntry k w).i = s.i := rfl
@[simp] theorem setEntry_pc (s : State) (k : Fin 16) (w : Word) : (s.setEntry k w).pc = s.pc := rfl
@[simp] theorem setEntry_stack (s : State) (k : Fin 16) (w : Word) : (s.setEntry k w).stack = s.stack.set k w := rfl
@[simp] theorem setEntry_sp (s : State) (k : Fin 16) (w : Word) : (s.setEntry k w).sp = s.sp := rfl
@[simp] theorem setEntry_dt (s : State) (k : Fin 16) (w : Word) : (s.setEntry k w).dt = s.dt := rfl
@[simp] theorem setEntry_st (s : State) (k : Fin 16) (w : Word) : (s.setEntry k w).st = s.st := rfl
@[simp] theorem setEntry_key (s : State) (k : Fin 16) (w : Word) : (s.setEntry k w).key = s.key := rfl
@[simp] theorem setEntry_fb (s : State) (k : Fin 16) (w : Word) : (s.setEntry k w).fb = s.fb := rfl
@[simp] theorem setEntry_drawReq (s : State) (k : Fin 16) (w : Word) : (s.setEntry k w).drawReq = s.drawReq := rfl
@[simp] theorem setEntry_mem (s : State) (k : Fin 16) (w : Word) : (s.setEntry k w).mem = s.mem := rfl
@[simp] theorem setEntry_halted (s : State) (k : Fin 16) (w : Word) : (s.setEntry k w).halted = s.halted := rfl
@[simp] theorem setEntry_faultKind (s : State) (k : Fin 16) (w : Word) : (s.setEntry k w).faultKind = s.faultKind := rfl
@[simp] theorem setEntry_faultOpcode (s : State) (k : Fin 16) (w : Word) : (s.setEntry k w).faultOpcode = s.faultOpcode := rfl
@[simp] theorem setEntry_faultPc (s : State) (k : Fin 16) (w : Word) : (s.setEntry k w).faultPc = s.faultPc := rfl
@[simp] theorem setEntry_status (s : State) (k : Fin 16) (w : Word) : (s.setEntry k w).status = s.status := rfl
@[simp] theorem setEntry_beep (s : State) (k : Fin 16) (w : Word) : (s.setEntry k w).beep = s.beep := rfl
@[simp] theorem setEntry_keyPress (s : State) (k : Fin 16) (w : Word) : (s.setEntry k w).keyPress = s.keyPress := rfl
@[simp] theorem setEntry_randByte (s : State) (k : Fin 16) (w : Word) : (s.setEntry k w).randByte = s.randByte := rfl
@[simp] theorem setEntry_font (s : State) (k : Fin 16) (w : Word) : (s.setEntry k w).font = s.font := rfl
@[simp] theorem setEntry_host (s : State) (k : Fin 16) (w : Word) : (s.setEntry k w).host = s.host := rfl
@[simp] theorem setEntry_draws (s : State) (k : Fin 16) (w : Word) : (s.setEntry k w).draws = s.draws := rfl
@[simp] theorem setEntry_getV (s : State) (k : Fin 16) (w : Word) (q : Nibble) : (s.setEntry k w).getV q = s.getV q := rfl
@[simp] theorem setEntry_memRead (s : State) (k : Fin 16) (w : Word) (q : Nat) : (s.setEntry k w).memRead q = s.memRead q := rfl
@[simp] theorem setEntry_pixel (s : State) (k : Fin 16) (w : Word) (q : Nat) : (s.setEntry k w).pixel q = s.pixel q := rfl

/-! ### `State.setSp` -/

@[simp] theorem setSp_v (s : State) (n : Fin 17) : (s.setSp n).v = s.v := rfl
@[simp] theorem setSp_i (s : State) (n : Fin 17) : (s.setSp n).i = s.i := rfl
@[simp] theorem setSp_pc (s : State) (n : Fin 17) : (s.setSp n).pc = s.pc := rfl
@[simp] theorem setSp_stack (s : State) (n : Fin 17) : (s.setSp n).stack = s.stack := rfl
@[simp] theorem setSp_sp (s : State) (n : Fin 17) : (s.setSp n).sp = n := rfl
@[simp] theorem setSp_dt (s : State) (n : Fin 17) : (s.setSp n).dt = s.dt := rfl
@[simp] theorem setSp_st (s : State) (n : Fin 17) : (s.setSp n).st = s.st := rfl
@[simp] theorem setSp_key (s : State) (n : Fin 17) : (s.setSp n).key = s.key := rfl
@[simp] theorem setSp_fb (s : State) (n : Fin 17) : (s.setSp n).fb = s.fb := rfl
@[simp] theorem setSp_drawReq (s : State) (n : Fin 17) : (s.setSp n).drawReq = s.drawReq := rfl
@[simp] theorem setSp_mem (s : State) (n : Fin 17) : (s.setSp n).mem = s.mem := rfl
@[simp] theorem setSp_halted (s : State) (n : Fin 17) : (s.setSp n).halted = s.halted := rfl
@[simp] theorem setSp_faultKind (s : State) (n : Fin 17) : (s.setSp n).faultKind = s.faultKind := rfl
@[simp] theorem setSp_faultOpcode (s : State) (n : Fin 17) : (s.setSp n).faultOpcode = s.faultOpcode := rfl
@[simp] theorem setSp_faultPc (s : State) (n : Fin 17) : (s.setSp n).faultPc = s.faultPc := rfl
@[simp] theorem setSp_status (s : State) (n : Fin 17) : (s.setSp n).status = s.status := rfl
@[simp] theorem setSp_beep (s : State) (n : Fin 17) : (s.setSp n).beep = s.beep := rfl
@[simp] theorem setSp_keyPress (s : State) (n : Fin 17) : (s.setSp n).keyPress = s.keyPress := rfl
@[simp] theorem setSp_randByte (s : State) (n : Fin 17) : (s.setSp n).randByte = s.randByte := rfl
@[simp] theorem setSp_font (s : State) (n : Fin 17) : (s.setSp n).font = s.font := rfl
@[simp] theorem setSp_host (s : State) (n : Fin 17) : (s.setSp n).host = s.host := rfl
@[simp] theorem setSp_draws (s : State) (n : Fin 17) : (s.setSp n).draws = s.draws := rfl
@[simp] theorem setSp_getV (s : State) (n : Fin 17) (q : Nibble) : (s.setSp n).getV q = s.getV q := rfl
@[simp] theorem setSp_memRead (s : State) (n : Fin 17) (q : Nat) : (s.setSp n).memRead q = s.memRead q := rfl
@[simp] theorem setSp_pixel (s : State) (n : Fin 17) (q : Nat) : (s.setSp n).pixel q = s.pixel q := rfl

/-! ### `State.memWrite` -/

@[simp] theorem memWrite_v (s : State) (a : Nat) (b : Byte) : (s.memWrite a b).v = s.v := rfl
@[simp] theorem memWrite_i (s : State) (a : Nat) (b : Byte) : (s.memWrite a b).i = s.i := rfl
@[simp] theorem memWrite_pc (s : State) (a : Nat) (b : Byte) : (s.memWrite a b).pc = s.pc := rfl
@[simp] theorem memWrite_stack (s : State) (a : Nat) (b : Byte) : (s.memWrite a b).stack = s.stack := rfl
@[simp] theorem memWrite_sp (s : State) (a : Nat) (b : Byte) : (s.memWrite a b).sp = s.sp := rfl
@[simp] theorem memWrite_dt (s : State) (a : Nat) (b : Byte) : (s.memWrite a b).dt = s.dt := rfl
@[simp] theorem memWrite_st (s : State) (a : Nat) (b : Byte) : (s.memWrite a b).st = s.st := rfl
@[simp] theorem memWrite_key (s : State) (a : Nat) (b : Byte) : (s.memWrite a b).key = s.key := rfl
@[simp] theorem memWrite_fb (s : State) (a : Nat) (b : Byte) : (s.memWrite a b).fb = s.fb := rfl
@[simp] theorem memWrite_drawReq (s : State) (a : Nat) (b : Byte) : (s.memWrite a b).drawReq = s.drawReq := rfl
@[simp] theorem memWrite_mem (s : State) (a : Nat) (b : Byte) : (s.memWrite a b).mem = Memory.write s.font s.mem (a % Config.memSize) b := rfl
@[simp] theorem memWrite_halted (s : State) (a : Nat) (b : Byte) : (s.memWrite a b).halted = s.halted := rfl
@[simp] theorem memWrite_faultKind (s : State) (a : Nat) (b : Byte) : (s.memWrite a b).faultKind = s.faultKind := rfl
@[simp] theorem memWrite_faultOpcode (s : State) (a : Nat) (b : Byte) : (s.memWrite a b).faultOpcode = s.faultOpcode := rfl
@[simp] theorem memWrite_faultPc (s : State) (a : Nat) (b : Byte) : (s.memWrite a b).faultPc = s.faultPc := rfl
@[simp] theorem memWrite_status (s : State) (a : Nat) (b : Byte) : (s.memWrite a b).status = s.status := rfl
@[simp] theorem memWrite_beep (s : State) (a : Nat) (b : Byte) : (s.memWrite a b).beep = s.beep := rfl
@[simp] theorem memWrite_keyPress (s : State) (a : Nat) (b : Byte) : (s.memWrite a b).keyPress = s.keyPress := rfl
@[simp] theorem memWrite_randByte (s : State) (a : Nat) (b : Byte) : (s.memWrite a b).randByte = s.randByte := rfl
@[simp] theorem memWrite_font (s : State) (a : Nat) (b : Byte) : (s.memWrite a b).font = s.font := rfl
@[simp] theorem memWrite_host (s : State) (a : Nat) (b : Byte) : (s.memWrite a b).host = s.host := rfl
@[simp] theorem memWrite_draws (s : State) (a : Nat) (b : Byte) : (s.memWrite a b).draws = s.draws := rfl
@[simp] theorem memWrite_getV (s : State) (a : Nat) (b : Byte) (q : Nibble) : (s.memWrite a b).getV q = s.getV q := rfl
@[simp] theorem memWrite_pixel (s : State) (a : Nat) (b : Byte) (q : Nat) : (s.memWrite a b).pixel q = s.pixel q := rfl

/-! ### `State.flipPixel` -/

@[simp] theorem flipPixel_v (s : State) (k : Nat) : (s.flipPixel k).v = s.v := rfl
@[simp] theorem flipPixel_i (s : State) (k : Nat) : (s.flipPixel k).i = s.i := rfl
@[simp] theorem flipPixel_pc (s : State) (k : Nat) : (s.flipPixel k).pc = s.pc := rfl
@[simp] theorem flipPixel_stack (s : State) (k : Nat) : (s.flipPixel k).stack = s.stack := rfl
@[simp] theorem flipPixel_sp (s : State) (k : Nat) : (s.flipPixel k).sp = s.sp := rfl
@[simp] theorem flipPixel_dt (s : State) (k : Nat) : (s.flipPixel k).dt = s.dt := rfl
@[simp] theorem flipPixel_st (s : State) (k : Nat) : (s.flipPixel k).st = s.st := rfl
@[simp] theorem flipPixel_key (s : State) (k : Nat) : (s.flipPixel k).key = s.key := rfl
@[simp] theorem flipPixel_drawReq (s : State) (k : Nat) : (s.flipPixel k).drawReq = s.drawReq := rfl
@[simp] theorem flipPixel_mem (s : State) (k : Nat) : (s.flipPixel k).mem = s.mem := rfl
@[simp] theorem flipPixel_halted (s : State) (k : Nat) : (s.flipPixel k).halted = s.halted := rfl
@[simp] theorem flipPixel_faultKind (s : State) (k : Nat) : (s.flipPixel k).faultKind = s.faultKind := rfl
@[simp] theorem flipPixel_faultOpcode (s : State) (k : Nat) : (s.flipPixel k).faultOpcode = s.faultOpcode := rfl
@[simp] theorem flipPixel_faultPc (s : State) (k : Nat) : (s.flipPixel k).faultPc = s.faultPc := rfl
@[simp] theorem flipPixel_status (s : State) (k : Nat) : (s.flipPixel k).status = s.status := rfl
@[simp] theorem flipPixel_beep (s : State) (k : Nat) : (s.flipPixel k).beep = s.beep := rfl
@[simp] theorem flipPixel_keyPress (s : State) (k : Nat) : (s.flipPixel k).keyPress = s.keyPress := rfl
@[simp] theorem flipPixel_randByte (s : State) (k : Nat) : (s.flipPixel k).randByte = s.randByte := rfl
@[simp] theorem flipPixel_font (s : State) (k : Nat) : (s.flipPixel k).font = s.font := rfl
@[simp] theorem flipPixel_host (s : State) (k : Nat) : (s.flipPixel k).host = s.host := rfl
@[simp] theorem flipPixel_draws (s : State) (k : Nat) : (s.flipPixel k).draws = s.draws := rfl
@[simp] theorem flipPixel_getV (s : State) (k : Nat) (q : Nibble) : (s.flipPixel k).getV q = s.getV q := rfl
@[simp] theorem flipPixel_memRead (s : State) (k : Nat) (q : Nat) : (s.flipPixel k).memRead q = s.memRead q := rfl

/-! ### `State.clearScreen` -/

@[simp] theorem clearScreen_v (s : State) : s.clearScreen.v = s.v := rfl
@[simp] theorem clearScreen_i (s : State) : s.clearScreen.i = s.i := rfl
@[simp] theorem clearScreen_pc (s : State) : s.clearScreen.pc = s.pc := rfl
@[simp] theorem clearScreen_stack (s : State) : s.clearScreen.stack = s.stack := rfl
@[simp] theorem clearScreen_sp (s : State) : s.clearScreen.sp = s.sp := rfl
@[simp] theorem clearScreen_dt (s : State) : s.clearScreen.dt = s.dt := rfl
@[simp] theorem clearScreen_st (s : State) : s.clearScreen.st = s.st := rfl
@[simp] theorem clearScreen_key (s : State) : s.clearScreen.key = s.key := rfl
@[simp] theorem clearScreen_fb (s : State) : s.clearScreen.fb = Vector.replicate 32 0#64 := rfl
@[simp] theorem clearScreen_drawReq (s : State) : s.clearScreen.drawReq = s.drawReq := rfl
@[simp] theorem clearScreen_mem (s : State) : s.clearScreen.mem = s.mem := rfl
@[simp] theorem clearScreen_halted (s : State) : s.clearScreen.halted = s.halted := rfl
@[simp] theorem clearScreen_faultKind (s : State) : s.clearScreen.faultKind = s.faultKind := rfl
@[simp] theorem clearScreen_faultOpcode (s : State) : s.clearScreen.faultOpcode = s.faultOpcode := rfl
@[simp] theorem clearScreen_faultPc (s : State) : s.clearScreen.faultPc = s.faultPc := rfl
@[simp] theorem clearScreen_status (s : State) : s.clearScreen.status = s.status := rfl
@[simp] theorem clearScreen_beep (s : State) : s.clearScreen.beep = s.beep := rfl
@[simp] theorem clearScreen_keyPress (s : State) : s.clearScreen.keyPress = s.keyPress := rfl
@[simp] theorem clearScreen_randByte (s : State) : s.clearScreen.randByte = s.randByte := rfl
@[simp] theorem clearScreen_font (s : State) : s.clearScreen.font = s.font := rfl
@[simp] theorem clearScreen_host (s : State) : s.clearScreen.host = s.host := rfl
@[simp] theorem clearScreen_draws (s : State) : s.clearScreen.draws = s.draws := rfl
@[simp] theorem clearScreen_getV (s : State) (q : Nibble) : s.clearScreen.getV q = s.getV q := rfl
@[simp] theorem clearScreen_memRead (s : State) (q : Nat) : s.clearScreen.memRead q = s.memRead q := rfl

/-! ### `State.requestDraw` -/

@[simp] theorem requestDraw_v (s : State) : s.requestDraw.v = s.v := rfl
@[simp] theorem requestDraw_i (s : State) : s.requestDraw.i = s.i := rfl
@[simp] theorem requestDraw_pc (s : State) : s.requestDraw.pc = s.pc := rfl
@[simp] theorem requestDraw_stack (s : State) : s.requestDraw.stack = s.stack := rfl
@[simp] theorem requestDraw_sp (s : State) : s.requestDraw.sp = s.sp := rfl
@[simp] theorem requestDraw_dt (s : State) : s.requestDraw.dt = s.dt := rfl
@[simp] theorem requestDraw_st (s : State) : s.requestDraw.st = s.st := rfl
@[simp] theorem requestDraw_key (s : State) : s.requestDraw.key = s.key := rfl
@[simp] theorem requestDraw_fb (s : State) : s.requestDraw.fb = s.fb := rfl
@[simp] theorem requestDraw_drawReq (s : State) : s.requestDraw.drawReq = true := rfl
@[simp] theorem requestDraw_mem (s : State) : s.requestDraw.mem = s.mem := rfl
@[simp] theorem requestDraw_halted (s : State) : s.requestDraw.halted = s.halted := rfl
@[simp] theorem requestDraw_faultKind (s : State) : s.requestDraw.faultKind = s.faultKind := rfl
@[simp] theorem requestDraw_faultOpcode (s : State) : s.requestDraw.faultOpcode = s.faultOpcode := rfl
@[simp] theorem requestDraw_faultPc (s : State) : s.requestDraw.faultPc = s.faultPc := rfl
@[simp] theorem requestDraw_status (s : State) : s.requestDraw.status = s.status := rfl
@[simp] theorem requestDraw_beep (s : State) : s.requestDraw.beep = s.beep := rfl
@[simp] theorem requestDraw_keyPress (s : State) : s.requestDraw.keyPress = s.keyPress := rfl
@[simp] theorem requestDraw_randByte (s : State) : s.requestDraw.randByte = s.randByte := rfl
@[simp] theorem requestDraw_font (s : State) : s.requestDraw.font = s.font := rfl
@[simp] theorem requestDraw_host (s : State) : s.requestDraw.host = s.host := rfl
@[simp] theorem requestDraw_draws (s : State) : s.requestDraw.draws = s.draws := rfl
@[simp] theorem requestDraw_getV (s : State) (q : Nibble) : s.requestDraw.getV q = s.getV q := rfl
@[simp] theorem requestDraw_memRead (s : State) (q : Nat) : s.requestDraw.memRead q = s.memRead q := rfl
@[simp] theorem requestDraw_pixel (s : State) (q : Nat) : s.requestDraw.pixel q = s.pixel q := rfl

/-! ### `State.setStatus` -/

@[simp] theorem setStatus_v (s : State) (r : Status) : (s.setStatus r).v = s.v := rfl
@[simp] theorem setStatus_i (s : State) (r : Status) : (s.setStatus r).i = s.i := rfl
@[simp] theorem setStatus_pc (s : State) (r : Status) : (s.setStatus r).pc = s.pc := rfl
@[simp] theorem setStatus_stack (s : State) (r : Status) : (s.setStatus r).stack = s.stack := rfl
@[simp] theorem setStatus_sp (s : State) (r : Status) : (s.setStatus r).sp = s.sp := rfl
@[simp] theorem setStatus_dt (s : State) (r : Status) : (s.setStatus r).dt = s.dt := rfl
@[simp] theorem setStatus_st (s : State) (r : Status) : (s.setStatus r).st = s.st := rfl
@[simp] theorem setStatus_key (s : State) (r : Status) : (s.setStatus r).key = s.key := rfl
@[simp] theorem setStatus_fb (s : State) (r : Status) : (s.setStatus r).fb = s.fb := rfl
@[simp] theorem setStatus_drawReq (s : State) (r : Status) : (s.setStatus r).drawReq = s.drawReq := rfl
@[simp] theorem setStatus_mem (s : State) (r : Status) : (s.setStatus r).mem = s.mem := rfl
@[simp] theorem setStatus_halted (s : State) (r : Status) : (s.setStatus r).halted = s.halted := rfl
@[simp] theorem setStatus_faultKind (s : State) (r : Status) : (s.setStatus r).faultKind = s.faultKind := rfl
@[simp] theorem setStatus_faultOpcode (s : State) (r : Status) : (s.setStatus r).faultOpcode = s.faultOpcode := rfl
@[simp] theorem setStatus_faultPc (s : State) (r : Status) : (s.setStatus r).faultPc = s.faultPc := rfl
@[simp] theorem setStatus_status (s : State) (r : Status) : (s.setStatus r).status = some r := rfl
@[simp] theorem setStatus_beep (s : State) (r : Status) : (s.setStatus r).beep = s.beep := rfl
@[simp] theorem setStatus_keyPress (s : State) (r : Status) : (s.setStatus r).keyPress = s.keyPress := rfl
@[simp] theorem setStatus_randByte (s : State) (r : Status) : (s.setStatus r).randByte = s.randByte := rfl
@[simp] theorem setStatus_font (s : State) (r : Status) : (s.setStatus r).font = s.font := rfl
@[simp] theorem setStatus_host (s : State) (r : Status) : (s.setStatus r).host = s.host := rfl
@[simp] theorem setStatus_draws (s : State) (r : Status) : (s.setStatus r).draws = s.draws := rfl
@[simp] theorem setStatus_getV (s : State) (r : Status) (q : Nibble) : (s.setStatus r).getV q = s.getV q := rfl
@[simp] theorem setStatus_memRead (s : State) (r : Status) (q : Nat) : (s.setStatus r).memRead q = s.memRead q := rfl
@[simp] theorem setStatus_pixel (s : State) (r : Status) (q : Nat) : (s.setStatus r).pixel q = s.pixel q := rfl

/-! ### `State.raiseFatal` -/

@[simp] theorem raiseFatal_v (s : State) (k : FatalKind) (w : Word) : (s.raiseFatal k w).v = s.v := rfl
@[simp] theorem raiseFatal_i (s : State) (k : FatalKind) (w : Word) : (s.raiseFatal k w).i = s.i := rfl
@[simp] theorem raiseFatal_pc (s : State) (k : FatalKind) (w : Word) : (s.raiseFatal k w).pc = s.pc := rfl
@[simp] theorem raiseFatal_stack (s : State) (k : FatalKind) (w : Word) : (s.raiseFatal k w).stack = s.stack := rfl
@[simp] theorem raiseFatal_sp (s : State) (k : FatalKind) (w : Word) : (s.raiseFatal k w).sp = s.sp := rfl
@[simp] theorem raiseFatal_dt (s : State) (k : FatalKind) (w : Word) : (s.raiseFatal k w).dt = s.dt := rfl
@[simp] theorem raiseFatal_st (s : State) (k : FatalKind) (w : Word) : (s.raiseFatal k w).st = s.st := rfl
@[simp] theorem raiseFatal_key (s : State) (k : FatalKind) (w : Word) : (s.raiseFatal k w).key = s.key := rfl
@[simp] theorem raiseFatal_fb (s : State) (k : FatalKind) (w : Word) : (s.raiseFatal k w).fb = s.fb := rfl
@[simp] theorem raiseFatal_drawReq (s : State) (k : FatalKind) (w : Word) : (s.raiseFatal k w).drawReq = s.drawReq := rfl
@[simp] theorem raiseFatal_mem (s : State) (k : FatalKind) (w : Word) : (s.raiseFatal k w).mem = s.mem := rfl
@[simp] theorem raiseFatal_halted (s : State) (k : FatalKind) (w : Word) : (s.raiseFatal k w).halted = true := rfl
@[simp] theorem raiseFatal_faultKind (s : State) (k : FatalKind) (w : Word) : (s.raiseFatal k w).faultKind = k.code := rfl
@[simp] theorem raiseFatal_faultOpcode (s : State) (k : FatalKind) (w : Word) : (s.raiseFatal k w).faultOpcode = w := rfl
@[simp] theorem raiseFatal_faultPc (s : State) (k : FatalKind) (w : Word) : (s.raiseFatal k w).faultPc = s.pc := rfl
@[simp] theorem raiseFatal_status (s : State) (k : FatalKind) (w : Word) : (s.raiseFatal k w).status = some .fatal := rfl
@[simp] theorem raiseFatal_beep (s : State) (k : FatalKind) (w : Word) : (s.raiseFatal k w).beep = s.beep := rfl
@[simp] theorem raiseFatal_keyPress (s : State) (k : FatalKind) (w : Word) : (s.raiseFatal k w).keyPress = s.keyPress := rfl
@[simp] theorem raiseFatal_randByte (s : State) (k : FatalKind) (w : Word) : (s.raiseFatal k w).randByte = s.randByte := rfl
@[simp] theorem raiseFatal_font (s : State) (k : FatalKind) (w : Word) : (s.raiseFatal k w).font = s.font := rfl
@[simp] theorem raiseFatal_host (s : State) (k : FatalKind) (w : Word) : (s.raiseFatal k w).host = s.host := rfl
@[simp] theorem raiseFatal_draws (s : State) (k : FatalKind) (w : Word) : (s.raiseFatal k w).draws = s.draws := rfl
@[simp] theorem raiseFatal_getV (s : State) (k : FatalKind) (w : Word) (q : Nibble) : (s.raiseFatal k w).getV q = s.getV q := rfl
@[simp] theorem raiseFatal_memRead (s : State) (k : FatalKind) (w : Word) (q : Nat) : (s.raiseFatal k w).memRead q = s.memRead q := rfl
@[simp] theorem raiseFatal_pixel (s : State) (k : FatalKind) (w : Word) (q : Nat) : (s.raiseFatal k w).pixel q = s.pixel q := rfl

/-! ### `State.tick` -/

@[simp] theorem tick_v (s : State) : s.tick.v = s.v := rfl
@[simp] theorem tick_i (s : State) : s.tick.i = s.i := rfl
@[simp] theorem tick_pc (s : State) : s.tick.pc = s.pc := rfl
@[simp] theorem tick_stack (s : State) : s.tick.stack = s.stack := rfl
@[simp] theorem tick_sp (s : State) : s.tick.sp = s.sp := rfl
@[simp] theorem tick_dt (s : State) : s.tick.dt = tickByte s.dt := rfl
@[simp] theorem tick_st (s : State) : s.tick.st = tickByte s.st := rfl
@[simp] theorem tick_key (s : State) : s.tick.key = s.key := rfl
@[simp] theorem tick_fb (s : State) : s.tick.fb = s.fb := rfl
@[simp] theorem tick_drawReq (s : State) : s.tick.drawReq = s.drawReq := rfl
@[simp] theorem tick_mem (s : State) : s.tick.mem = s.mem := rfl
@[simp] theorem tick_halted (s : State) : s.tick.halted = s.halted := rfl
@[simp] theorem tick_faultKind (s : State) : s.tick.faultKind = s.faultKind := rfl
@[simp] theorem tick_faultOpcode (s : State) : s.tick.faultOpcode = s.faultOpcode := rfl
@[simp] theorem tick_faultPc (s : State) : s.tick.faultPc = s.faultPc := rfl
@[simp] theorem tick_status (s : State) : s.tick.status = s.status := rfl
@[simp] theorem tick_beep (s : State) : s.tick.beep = some (s.st == 0x01#8) := rfl
@[simp] theorem tick_keyPress (s : State) : s.tick.keyPress = s.keyPress := rfl
@[simp] theorem tick_randByte (s : State) : s.tick.randByte = s.randByte := rfl
@[simp] theorem tick_font (s : State) : s.tick.font = s.font := rfl
@[simp] theorem tick_host (s : State) : s.tick.host = s.host := rfl
@[simp] theorem tick_draws (s : State) : s.tick.draws = s.draws := rfl
@[simp] theorem tick_getV (s : State) (q : Nibble) : s.tick.getV q = s.getV q := rfl
@[simp] theorem tick_memRead (s : State) (q : Nat) : s.tick.memRead q = s.memRead q := rfl
@[simp] theorem tick_pixel (s : State) (q : Nat) : s.tick.pixel q = s.pixel q := rfl

/-! ### `State.silent` -/

@[simp] theorem silent_v (s : State) : s.silent.v = s.v := rfl
@[simp] theorem silent_i (s : State) : s.silent.i = s.i := rfl
@[simp] theorem silent_pc (s : State) : s.silent.pc = s.pc := rfl
@[simp] theorem silent_stack (s : State) : s.silent.stack = s.stack := rfl
@[simp] theorem silent_sp (s : State) : s.silent.sp = s.sp := rfl
@[simp] theorem silent_dt (s : State) : s.silent.dt = s.dt := rfl
@[simp] theorem silent_st (s : State) : s.silent.st = s.st := rfl
@[simp] theorem silent_key (s : State) : s.silent.key = s.key := rfl
@[simp] theorem silent_fb (s : State) : s.silent.fb = s.fb := rfl
@[simp] theorem silent_drawReq (s : State) : s.silent.drawReq = s.drawReq := rfl
@[simp] theorem silent_mem (s : State) : s.silent.mem = s.mem := rfl
@[simp] theorem silent_halted (s : State) : s.silent.halted = s.halted := rfl
@[simp] theorem silent_faultKind (s : State) : s.silent.faultKind = s.faultKind := rfl
@[simp] theorem silent_faultOpcode (s : State) : s.silent.faultOpcode = s.faultOpcode := rfl
@[simp] theorem silent_faultPc (s : State) : s.silent.faultPc = s.faultPc := rfl
@[simp] theorem silent_status (s : State) : s.silent.status = s.status := rfl
@[simp] theorem silent_beep (s : State) : s.silent.beep = some false := rfl
@[simp] theorem silent_keyPress (s : State) : s.silent.keyPress = s.keyPress := rfl
@[simp] theorem silent_randByte (s : State) : s.silent.randByte = s.randByte := rfl
@[simp] theorem silent_font (s : State) : s.silent.font = s.font := rfl
@[simp] theorem silent_host (s : State) : s.silent.host = s.host := rfl
@[simp] theorem silent_draws (s : State) : s.silent.draws = s.draws := rfl
@[simp] theorem silent_getV (s : State) (q : Nibble) : s.silent.getV q = s.getV q := rfl
@[simp] theorem silent_memRead (s : State) (q : Nat) : s.silent.memRead q = s.memRead q := rfl
@[simp] theorem silent_pixel (s : State) (q : Nat) : s.silent.pixel q = s.pixel q := rfl

/-! ### `State.freshInputs` -/

@[simp] theorem freshInputs_v (s : State) : s.freshInputs.v = s.v := rfl
@[simp] theorem freshInputs_i (s : State) : s.freshInputs.i = s.i := rfl
@[simp] theorem freshInputs_pc (s : State) : s.freshInputs.pc = s.pc := rfl
@[simp] theorem freshInputs_stack (s : State) : s.freshInputs.stack = s.stack := rfl
@[simp] theorem freshInputs_sp (s : State) : s.freshInputs.sp = s.sp := rfl
@[simp] theorem freshInputs_dt (s : State) : s.freshInputs.dt = s.dt := rfl
@[simp] theorem freshInputs_st (s : State) : s.freshInputs.st = s.st := rfl
@[simp] theorem freshInputs_key (s : State) : s.freshInputs.key = s.key := rfl
@[simp] theorem freshInputs_fb (s : State) : s.freshInputs.fb = s.fb := rfl
@[simp] theorem freshInputs_drawReq (s : State) : s.freshInputs.drawReq = s.drawReq := rfl
@[simp] theorem freshInputs_mem (s : State) : s.freshInputs.mem = s.mem := rfl
@[simp] theorem freshInputs_halted (s : State) : s.freshInputs.halted = s.halted := rfl
@[simp] theorem freshInputs_faultKind (s : State) : s.freshInputs.faultKind = s.faultKind := rfl
@[simp] theorem freshInputs_faultOpcode (s : State) : s.freshInputs.faultOpcode = s.faultOpcode := rfl
@[simp] theorem freshInputs_faultPc (s : State) : s.freshInputs.faultPc = s.faultPc := rfl
@[simp] theorem freshInputs_status (s : State) : s.freshInputs.status = s.status := rfl
@[simp] theorem freshInputs_beep (s : State) : s.freshInputs.beep = s.beep := rfl
@[simp] theorem freshInputs_keyPress (s : State) : s.freshInputs.keyPress = Config.freeKeyPress s.draws := rfl
@[simp] theorem freshInputs_randByte (s : State) : s.freshInputs.randByte = Config.freeRandByte s.draws := rfl
@[simp] theorem freshInputs_font (s : State) : s.freshInputs.font = s.font := rfl
@[simp] theorem freshInputs_host (s : State) : s.freshInputs.host = s.host := rfl
@[simp] theorem freshInputs_draws (s : State) : s.freshInputs.draws = s.draws + 1 := rfl
@[simp] theorem freshInputs_getV (s : State) (q : Nibble) : s.freshInputs.getV q = s.getV q := rfl
@[simp] theorem freshInputs_memRead (s : State) (q : Nat) : s.freshInputs.memRead q = s.memRead q := rfl
@[simp] theorem freshInputs_pixel (s : State) (q : Nat) : s.freshInputs.pixel q = s.pixel q := rfl

/-! ### `State.present` -/

@[simp] theorem present_v (s : State) (k : Option Nibble) (r : Byte) : (s.present k r).v = s.v := rfl
@[simp] theorem present_i (s : State) (k : Option Nibble) (r : Byte) : (s.present k r).i = s.i := rfl
@[simp] theorem present_pc (s : State) (k : Option Nibble) (r : Byte) : (s.present k r).pc = s.pc := rfl
@[simp] theorem present_stack (s : State) (k : Option Nibble) (r : Byte) : (s.present k r).stack = s.stack := rfl
@[simp] theorem present_sp (s : State) (k : Option Nibble) (r : Byte) : (s.present k r).sp = s.sp := rfl
@[simp] theorem present_dt (s : State) (k : Option Nibble) (r : Byte) : (s.present k r).dt = s.dt := rfl
@[simp] theorem present_st (s : State) (k : Option Nibble) (r : Byte) : (s.present k r).st = s.st := rfl
@[simp] theorem present_key (s : State) (k : Option Nibble) (r : Byte) : (s.present k r).key = s.key := rfl
@[simp] theorem present_fb (s : State) (k : Option Nibble) (r : Byte) : (s.present k r).fb = s.fb := rfl
@[simp] theorem present_drawReq (s : State) (k : Option Nibble) (r : Byte) : (s.present k r).drawReq = s.drawReq := rfl
@[simp] theorem present_mem (s : State) (k : Option Nibble) (r : Byte) : (s.present k r).mem = s.mem := rfl
@[simp] theorem present_halted (s : State) (k : Option Nibble) (r : Byte) : (s.present k r).halted = s.halted := rfl
@[simp] theorem present_faultKind (s : State) (k : Option Nibble) (r : Byte) : (s.present k r).faultKind = s.faultKind := rfl
@[simp] theorem present_faultOpcode (s : State) (k : Option Nibble) (r : Byte) : (s.present k r).faultOpcode = s.faultOpcode := rfl
@[simp] theorem present_faultPc (s : State) (k : Option Nibble) (r : Byte) : (s.present k r).faultPc = s.faultPc := rfl
@[simp] theorem present_status (s : State) (k : Option Nibble) (r : Byte) : (s.present k r).status = s.status := rfl
@[simp] theorem present_beep (s : State) (k : Option Nibble) (r : Byte) : (s.present k r).beep = s.beep := rfl
@[simp] theorem present_keyPress (s : State) (k : Option Nibble) (r : Byte) : (s.present k r).keyPress = k := rfl
@[simp] theorem present_randByte (s : State) (k : Option Nibble) (r : Byte) : (s.present k r).randByte = r := rfl
@[simp] theorem present_font (s : State) (k : Option Nibble) (r : Byte) : (s.present k r).font = s.font := rfl
@[simp] theorem present_host (s : State) (k : Option Nibble) (r : Byte) : (s.present k r).host = s.host := rfl
@[simp] theorem present_draws (s : State) (k : Option Nibble) (r : Byte) : (s.present k r).draws = s.draws := rfl
@[simp] theorem present_getV (s : State) (k : Option Nibble) (r : Byte) (q : Nibble) : (s.present k r).getV q = s.getV q := rfl
@[simp] theorem present_memRead (s : State) (k : Option Nibble) (r : Byte) (q : Nat) : (s.present k r).memRead q = s.memRead q := rfl
@[simp] theorem present_pixel (s : State) (k : Option Nibble) (r : Byte) (q : Nat) : (s.present k r).pixel q = s.pixel q := rfl

/-! ### `State.setHost` -/

@[simp] theorem setHost_v (s : State) (h : List HostMove) : (s.setHost h).v = s.v := rfl
@[simp] theorem setHost_i (s : State) (h : List HostMove) : (s.setHost h).i = s.i := rfl
@[simp] theorem setHost_pc (s : State) (h : List HostMove) : (s.setHost h).pc = s.pc := rfl
@[simp] theorem setHost_stack (s : State) (h : List HostMove) : (s.setHost h).stack = s.stack := rfl
@[simp] theorem setHost_sp (s : State) (h : List HostMove) : (s.setHost h).sp = s.sp := rfl
@[simp] theorem setHost_dt (s : State) (h : List HostMove) : (s.setHost h).dt = s.dt := rfl
@[simp] theorem setHost_st (s : State) (h : List HostMove) : (s.setHost h).st = s.st := rfl
@[simp] theorem setHost_key (s : State) (h : List HostMove) : (s.setHost h).key = s.key := rfl
@[simp] theorem setHost_fb (s : State) (h : List HostMove) : (s.setHost h).fb = s.fb := rfl
@[simp] theorem setHost_drawReq (s : State) (h : List HostMove) : (s.setHost h).drawReq = s.drawReq := rfl
@[simp] theorem setHost_mem (s : State) (h : List HostMove) : (s.setHost h).mem = s.mem := rfl
@[simp] theorem setHost_halted (s : State) (h : List HostMove) : (s.setHost h).halted = s.halted := rfl
@[simp] theorem setHost_faultKind (s : State) (h : List HostMove) : (s.setHost h).faultKind = s.faultKind := rfl
@[simp] theorem setHost_faultOpcode (s : State) (h : List HostMove) : (s.setHost h).faultOpcode = s.faultOpcode := rfl
@[simp] theorem setHost_faultPc (s : State) (h : List HostMove) : (s.setHost h).faultPc = s.faultPc := rfl
@[simp] theorem setHost_status (s : State) (h : List HostMove) : (s.setHost h).status = s.status := rfl
@[simp] theorem setHost_beep (s : State) (h : List HostMove) : (s.setHost h).beep = s.beep := rfl
@[simp] theorem setHost_keyPress (s : State) (h : List HostMove) : (s.setHost h).keyPress = s.keyPress := rfl
@[simp] theorem setHost_randByte (s : State) (h : List HostMove) : (s.setHost h).randByte = s.randByte := rfl
@[simp] theorem setHost_font (s : State) (h : List HostMove) : (s.setHost h).font = s.font := rfl
@[simp] theorem setHost_host (s : State) (h : List HostMove) : (s.setHost h).host = h := rfl
@[simp] theorem setHost_draws (s : State) (h : List HostMove) : (s.setHost h).draws = s.draws := rfl
@[simp] theorem setHost_getV (s : State) (h : List HostMove) (q : Nibble) : (s.setHost h).getV q = s.getV q := rfl
@[simp] theorem setHost_memRead (s : State) (h : List HostMove) (q : Nat) : (s.setHost h).memRead q = s.memRead q := rfl
@[simp] theorem setHost_pixel (s : State) (h : List HostMove) (q : Nat) : (s.setHost h).pixel q = s.pixel q := rfl

/-! ### `State.applyKeys` -/

@[simp] theorem applyKeys_v (s : State) (k : Vector Bool 16) : (s.applyKeys k).v = s.v := rfl
@[simp] theorem applyKeys_i (s : State) (k : Vector Bool 16) : (s.applyKeys k).i = s.i := rfl
@[simp] theorem applyKeys_pc (s : State) (k : Vector Bool 16) : (s.applyKeys k).pc = s.pc := rfl
@[simp] theorem applyKeys_stack (s : State) (k : Vector Bool 16) : (s.applyKeys k).stack = s.stack := rfl
@[simp] theorem applyKeys_sp (s : State) (k : Vector Bool 16) : (s.applyKeys k).sp = s.sp := rfl
@[simp] theorem applyKeys_dt (s : State) (k : Vector Bool 16) : (s.applyKeys k).dt = s.dt := rfl
@[simp] theorem applyKeys_st (s : State) (k : Vector Bool 16) : (s.applyKeys k).st = s.st := rfl
@[simp] theorem applyKeys_key (s : State) (k : Vector Bool 16) : (s.applyKeys k).key = k := rfl
@[simp] theorem applyKeys_fb (s : State) (k : Vector Bool 16) : (s.applyKeys k).fb = s.fb := rfl
@[simp] theorem applyKeys_drawReq (s : State) (k : Vector Bool 16) : (s.applyKeys k).drawReq = s.drawReq := rfl
@[simp] theorem applyKeys_mem (s : State) (k : Vector Bool 16) : (s.applyKeys k).mem = s.mem := rfl
@[simp] theorem applyKeys_halted (s : State) (k : Vector Bool 16) : (s.applyKeys k).halted = s.halted := rfl
@[simp] theorem applyKeys_faultKind (s : State) (k : Vector Bool 16) : (s.applyKeys k).faultKind = s.faultKind := rfl
@[simp] theorem applyKeys_faultOpcode (s : State) (k : Vector Bool 16) : (s.applyKeys k).faultOpcode = s.faultOpcode := rfl
@[simp] theorem applyKeys_faultPc (s : State) (k : Vector Bool 16) : (s.applyKeys k).faultPc = s.faultPc := rfl
@[simp] theorem applyKeys_status (s : State) (k : Vector Bool 16) : (s.applyKeys k).status = s.status := rfl
@[simp] theorem applyKeys_beep (s : State) (k : Vector Bool 16) : (s.applyKeys k).beep = s.beep := rfl
@[simp] theorem applyKeys_keyPress (s : State) (k : Vector Bool 16) : (s.applyKeys k).keyPress = s.keyPress := rfl
@[simp] theorem applyKeys_randByte (s : State) (k : Vector Bool 16) : (s.applyKeys k).randByte = s.randByte := rfl
@[simp] theorem applyKeys_font (s : State) (k : Vector Bool 16) : (s.applyKeys k).font = s.font := rfl
@[simp] theorem applyKeys_host (s : State) (k : Vector Bool 16) : (s.applyKeys k).host = s.host := rfl
@[simp] theorem applyKeys_draws (s : State) (k : Vector Bool 16) : (s.applyKeys k).draws = s.draws := rfl
@[simp] theorem applyKeys_getV (s : State) (k : Vector Bool 16) (q : Nibble) : (s.applyKeys k).getV q = s.getV q := rfl
@[simp] theorem applyKeys_memRead (s : State) (k : Vector Bool 16) (q : Nat) : (s.applyKeys k).memRead q = s.memRead q := rfl
@[simp] theorem applyKeys_pixel (s : State) (k : Vector Bool 16) (q : Nat) : (s.applyKeys k).pixel q = s.pixel q := rfl

/-! ### `State.applyConsumeFrame` -/

@[simp] theorem applyConsumeFrame_v (s : State) : s.applyConsumeFrame.v = s.v := rfl
@[simp] theorem applyConsumeFrame_i (s : State) : s.applyConsumeFrame.i = s.i := rfl
@[simp] theorem applyConsumeFrame_pc (s : State) : s.applyConsumeFrame.pc = s.pc := rfl
@[simp] theorem applyConsumeFrame_stack (s : State) : s.applyConsumeFrame.stack = s.stack := rfl
@[simp] theorem applyConsumeFrame_sp (s : State) : s.applyConsumeFrame.sp = s.sp := rfl
@[simp] theorem applyConsumeFrame_dt (s : State) : s.applyConsumeFrame.dt = s.dt := rfl
@[simp] theorem applyConsumeFrame_st (s : State) : s.applyConsumeFrame.st = s.st := rfl
@[simp] theorem applyConsumeFrame_key (s : State) : s.applyConsumeFrame.key = s.key := rfl
@[simp] theorem applyConsumeFrame_fb (s : State) : s.applyConsumeFrame.fb = s.fb := rfl
@[simp] theorem applyConsumeFrame_drawReq (s : State) : s.applyConsumeFrame.drawReq = false := rfl
@[simp] theorem applyConsumeFrame_mem (s : State) : s.applyConsumeFrame.mem = s.mem := rfl
@[simp] theorem applyConsumeFrame_halted (s : State) : s.applyConsumeFrame.halted = s.halted := rfl
@[simp] theorem applyConsumeFrame_faultKind (s : State) : s.applyConsumeFrame.faultKind = s.faultKind := rfl
@[simp] theorem applyConsumeFrame_faultOpcode (s : State) : s.applyConsumeFrame.faultOpcode = s.faultOpcode := rfl
@[simp] theorem applyConsumeFrame_faultPc (s : State) : s.applyConsumeFrame.faultPc = s.faultPc := rfl
@[simp] theorem applyConsumeFrame_status (s : State) : s.applyConsumeFrame.status = s.status := rfl
@[simp] theorem applyConsumeFrame_beep (s : State) : s.applyConsumeFrame.beep = s.beep := rfl
@[simp] theorem applyConsumeFrame_keyPress (s : State) : s.applyConsumeFrame.keyPress = s.keyPress := rfl
@[simp] theorem applyConsumeFrame_randByte (s : State) : s.applyConsumeFrame.randByte = s.randByte := rfl
@[simp] theorem applyConsumeFrame_font (s : State) : s.applyConsumeFrame.font = s.font := rfl
@[simp] theorem applyConsumeFrame_host (s : State) : s.applyConsumeFrame.host = s.host := rfl
@[simp] theorem applyConsumeFrame_draws (s : State) : s.applyConsumeFrame.draws = s.draws := rfl
@[simp] theorem applyConsumeFrame_getV (s : State) (q : Nibble) : s.applyConsumeFrame.getV q = s.getV q := rfl
@[simp] theorem applyConsumeFrame_memRead (s : State) (q : Nat) : s.applyConsumeFrame.memRead q = s.memRead q := rfl
@[simp] theorem applyConsumeFrame_pixel (s : State) (q : Nat) : s.applyConsumeFrame.pixel q = s.pixel q := rfl

/-! ### `State.applyReset` -/

@[simp] theorem applyReset_v (s : State) : s.applyReset.v = (State.resetWith s.font).v := rfl
@[simp] theorem applyReset_i (s : State) : s.applyReset.i = (State.resetWith s.font).i := rfl
@[simp] theorem applyReset_pc (s : State) : s.applyReset.pc = (State.resetWith s.font).pc := rfl
@[simp] theorem applyReset_stack (s : State) : s.applyReset.stack = (State.resetWith s.font).stack := rfl
@[simp] theorem applyReset_sp (s : State) : s.applyReset.sp = (State.resetWith s.font).sp := rfl
@[simp] theorem applyReset_dt (s : State) : s.applyReset.dt = (State.resetWith s.font).dt := rfl
@[simp] theorem applyReset_st (s : State) : s.applyReset.st = (State.resetWith s.font).st := rfl
@[simp] theorem applyReset_key (s : State) : s.applyReset.key = (State.resetWith s.font).key := rfl
@[simp] theorem applyReset_fb (s : State) : s.applyReset.fb = (State.resetWith s.font).fb := rfl
@[simp] theorem applyReset_drawReq (s : State) : s.applyReset.drawReq = (State.resetWith s.font).drawReq := rfl
@[simp] theorem applyReset_mem (s : State) : s.applyReset.mem = (State.resetWith s.font).mem := rfl
@[simp] theorem applyReset_halted (s : State) : s.applyReset.halted = (State.resetWith s.font).halted := rfl
@[simp] theorem applyReset_faultKind (s : State) : s.applyReset.faultKind = (State.resetWith s.font).faultKind := rfl
@[simp] theorem applyReset_faultOpcode (s : State) : s.applyReset.faultOpcode = (State.resetWith s.font).faultOpcode := rfl
@[simp] theorem applyReset_faultPc (s : State) : s.applyReset.faultPc = (State.resetWith s.font).faultPc := rfl
@[simp] theorem applyReset_status (s : State) : s.applyReset.status = (State.resetWith s.font).status := rfl
@[simp] theorem applyReset_beep (s : State) : s.applyReset.beep = (State.resetWith s.font).beep := rfl
@[simp] theorem applyReset_keyPress (s : State) : s.applyReset.keyPress = s.keyPress := rfl
@[simp] theorem applyReset_randByte (s : State) : s.applyReset.randByte = s.randByte := rfl
@[simp] theorem applyReset_font (s : State) : s.applyReset.font = s.font := rfl
@[simp] theorem applyReset_host (s : State) : s.applyReset.host = s.host := rfl
@[simp] theorem applyReset_draws (s : State) : s.applyReset.draws = s.draws := rfl
@[simp] theorem applyReset_getV (s : State) (q : Nibble) : s.applyReset.getV q = (State.resetWith s.font).getV q := rfl
@[simp] theorem applyReset_memRead (s : State) (q : Nat) : s.applyReset.memRead q = (State.resetWith s.font).memRead q := rfl
@[simp] theorem applyReset_pixel (s : State) (q : Nat) : s.applyReset.pixel q = (State.resetWith s.font).pixel q := rfl

/-! ### `State.resetWith` -/

@[simp] theorem resetWith_v (f : Config.Font) : (State.resetWith f).v = Vector.replicate 16 0x00#8 := rfl
@[simp] theorem resetWith_i (f : Config.Font) : (State.resetWith f).i = 0x0000#16 := rfl
@[simp] theorem resetWith_pc (f : Config.Font) : (State.resetWith f).pc = 0x0200#16 := rfl
@[simp] theorem resetWith_stack (f : Config.Font) : (State.resetWith f).stack = Vector.replicate 16 0x0000#16 := rfl
@[simp] theorem resetWith_sp (f : Config.Font) : (State.resetWith f).sp = 0 := rfl
@[simp] theorem resetWith_dt (f : Config.Font) : (State.resetWith f).dt = 0x00#8 := rfl
@[simp] theorem resetWith_st (f : Config.Font) : (State.resetWith f).st = 0x00#8 := rfl
@[simp] theorem resetWith_key (f : Config.Font) : (State.resetWith f).key = Vector.replicate 16 false := rfl
@[simp] theorem resetWith_fb (f : Config.Font) : (State.resetWith f).fb = Vector.replicate 32 0#64 := rfl
@[simp] theorem resetWith_drawReq (f : Config.Font) : (State.resetWith f).drawReq = false := rfl
@[simp] theorem resetWith_mem (f : Config.Font) : (State.resetWith f).mem = [] := rfl
@[simp] theorem resetWith_halted (f : Config.Font) : (State.resetWith f).halted = false := rfl
@[simp] theorem resetWith_faultKind (f : Config.Font) : (State.resetWith f).faultKind = 0#2 := rfl
@[simp] theorem resetWith_faultOpcode (f : Config.Font) : (State.resetWith f).faultOpcode = 0x0000#16 := rfl
@[simp] theorem resetWith_faultPc (f : Config.Font) : (State.resetWith f).faultPc = 0x0000#16 := rfl
@[simp] theorem resetWith_status (f : Config.Font) : (State.resetWith f).status = none := rfl
@[simp] theorem resetWith_beep (f : Config.Font) : (State.resetWith f).beep = none := rfl
@[simp] theorem resetWith_keyPress (f : Config.Font) : (State.resetWith f).keyPress = none := rfl
@[simp] theorem resetWith_randByte (f : Config.Font) : (State.resetWith f).randByte = 0x00#8 := rfl
@[simp] theorem resetWith_font (f : Config.Font) : (State.resetWith f).font = f := rfl
@[simp] theorem resetWith_host (f : Config.Font) : (State.resetWith f).host = [] := rfl
@[simp] theorem resetWith_draws (f : Config.Font) : (State.resetWith f).draws = 0 := rfl

end Sys2Proof.Machine
end

