-- ==== Sys2Proof/Laws/Memory.lean ====
section
/-! SUPPORT. Laws of memory: reads after writes, other addresses left alone, the canonical form kept (spec/20_memory.md). -/

namespace Sys2Proof.Machine

variable {font : Config.Font}

@[simp] theorem Memory.read_nil (a : Nat) : Memory.read font [] a = Memory.resetByte font a := rfl

theorem Memory.read_cons (c : Host.Cell) (m : List Host.Cell) (a : Nat) :
    Memory.read font (c :: m) a = if c.1 = a then c.2 else Memory.read font m a := rfl

/-- Taking the lower bound of a canonical memory apart. -/
theorem Memory.wfFrom_cons {lo : Nat} {c : Host.Cell} {m : List Host.Cell} :
    Memory.wfFrom font lo (c :: m) = true ↔
      lo ≤ c.1 ∧ c.1 < Config.memSize ∧ c.2 ≠ Memory.resetByte font c.1 ∧ Memory.wfFrom font (c.1 + 1) m = true := by
  simp [Memory.wfFrom, and_assoc]

theorem Memory.wfFrom_mono {lo lo' : Nat} {m : List Host.Cell} (h : lo' ≤ lo) (hm : Memory.wfFrom font lo m = true) :
    Memory.wfFrom font lo' m = true := by
  cases m with
  | nil => rfl
  | cons c m =>
    rw [Memory.wfFrom_cons] at hm ⊢
    exact ⟨h.trans hm.1, hm.2⟩

/-- Below the first listed address a byte reads as unlisted. -/
theorem Memory.read_below {lo a : Nat} {m : List Host.Cell} (hm : Memory.wfFrom font lo m = true) (ha : a < lo) :
    Memory.read font m a = Memory.resetByte font a := by
  induction m generalizing lo with
  | nil => rfl
  | cons c m ih =>
    rw [Memory.wfFrom_cons] at hm
    have hne : c.1 ≠ a := by omega
    rw [Memory.read_cons, if_neg hne]
    exact ih hm.2.2.2 (by omega)

/-- `Memory.cons` at an address below the rest: the byte reads back. -/
theorem Memory.read_cons_self {lo a : Nat} {b : Byte} {m : List Host.Cell} (hm : Memory.wfFrom font lo m = true) (ha : a < lo) :
    Memory.read font (Memory.cons font a b m) a = b := by
  unfold Memory.cons
  split
  · rw [Memory.read_below hm ha]; exact Eq.symm ‹_›
  · simp [Memory.read_cons]

theorem Memory.read_cons_other {a a' : Nat} {b : Byte} {m : List Host.Cell} (h : a' ≠ a) :
    Memory.read font (Memory.cons font a b m) a' = Memory.read font m a' := by
  unfold Memory.cons
  split
  · rfl
  · rw [Memory.read_cons, if_neg (Ne.symm h)]

theorem Memory.wfFrom_cons_op {lo a : Nat} {b : Byte} {m : List Host.Cell} (hm : Memory.wfFrom font (a + 1) m = true)
    (hlo : lo ≤ a) (ha : a < Config.memSize) : Memory.wfFrom font lo (Memory.cons font a b m) = true := by
  unfold Memory.cons
  split
  · exact Memory.wfFrom_mono (by omega) hm
  · rw [Memory.wfFrom_cons]; exact ⟨hlo, ha, ‹_›, hm⟩

/-- A write leaves every other address alone, whatever the list. -/
theorem Memory.read_write_other (m : List Host.Cell) {a a' : Nat} (b : Byte) (h : a' ≠ a) :
    Memory.read font (Memory.write font m a b) a' = Memory.read font m a' := by
  induction m with
  | nil => exact Memory.read_cons_other h
  | cons c m ih =>
    unfold Memory.write
    split
    · exact Memory.read_cons_other h
    · split
      · have hc : c.1 ≠ a' := by omega
        rw [Memory.read_cons_other h, Memory.read_cons, if_neg hc]
      · rw [Memory.read_cons, Memory.read_cons, ih]

/-- A read after a write to the same address gives the value written. -/
theorem Memory.read_write_self {lo : Nat} {m : List Host.Cell} (hm : Memory.wfFrom font lo m = true) (a : Nat) (b : Byte) :
    Memory.read font (Memory.write font m a b) a = b := by
  induction m generalizing lo with
  | nil => exact Memory.read_cons_self (lo := a + 1) rfl (by omega)
  | cons c m ih =>
    have hm' := Memory.wfFrom_cons.mp hm
    unfold Memory.write
    split
    · exact Memory.read_cons_self (lo := c.1) (Memory.wfFrom_cons.mpr ⟨le_refl _, hm'.2⟩) ‹_›
    · split
      · exact Memory.read_cons_self hm'.2.2.2 (by omega)
      · have hc : c.1 ≠ a := by omega
        rw [Memory.read_cons, if_neg hc]; exact ih hm'.2.2.2

/-- A write keeps the canonical form. -/
theorem Memory.wfFrom_write {lo : Nat} {m : List Host.Cell} (hm : Memory.wfFrom font lo m = true) {a : Nat} (b : Byte)
    (hlo : lo ≤ a) (ha : a < Config.memSize) : Memory.wfFrom font lo (Memory.write font m a b) = true := by
  induction m generalizing lo with
  | nil => exact Memory.wfFrom_cons_op rfl hlo ha
  | cons c m ih =>
    have hm' := Memory.wfFrom_cons.mp hm
    unfold Memory.write
    split
    · exact Memory.wfFrom_cons_op (Memory.wfFrom_cons.mpr ⟨by omega, hm'.2⟩) hlo ha
    · split
      · exact Memory.wfFrom_cons_op (by simpa [‹a = c.1›] using hm'.2.2.2) hlo ha
      · rw [Memory.wfFrom_cons]; exact ⟨hm'.1, hm'.2.1, hm'.2.2.1, ih hm'.2.2.2 (by omega)⟩

theorem Memory.wf_write {m : List Host.Cell} (hm : Memory.wf font m = true) (a : Nat) (b : Byte) :
    Memory.wf font (Memory.write font m (a % Config.memSize) b) = true :=
  Memory.wfFrom_write hm b (Nat.zero_le _) (Nat.mod_lt _ (by decide))

/-! ## Through the state -/

/-- A read after a write: the value written at the same address modulo 4096, the old byte elsewhere (R42, R48). -/
theorem State.memRead_memWrite {s : State} (hs : Memory.wf s.font s.mem = true) (a a' : Nat) (b : Byte) :
    (s.memWrite a b).memRead a' = if a' % Config.memSize = a % Config.memSize then b else s.memRead a' := by
  unfold State.memRead
  rw [memWrite_mem]
  split
  · rw [‹a' % _ = _›]; exact Memory.read_write_self hs _ _
  · exact Memory.read_write_other _ _ ‹_›

theorem State.memRead_memWrite_other (s : State) {a a' : Nat} (b : Byte) (h : a' % Config.memSize ≠ a % Config.memSize) :
    (s.memWrite a b).memRead a' = s.memRead a' := Memory.read_write_other _ _ h

theorem State.wf_memWrite {s : State} (hs : Memory.wf s.font s.mem = true) (a : Nat) (b : Byte) :
    Memory.wf (s.memWrite a b).font (s.memWrite a b).mem = true := Memory.wf_write hs a b

theorem State.wf_writeBytes {s : State} (hs : Memory.wf s.font s.mem = true) (a : Nat) (bs : List Byte) :
    Memory.wf (s.writeBytes a bs).font (s.writeBytes a bs).mem = true := by
  induction bs generalizing s a with
  | nil => exact hs
  | cons b bs ih => exact ih (State.wf_memWrite hs a b) (a + 1)

/-- Bytes outside the stored block keep their value. -/
theorem State.memRead_writeBytes_outside (s : State) (a : Nat) (bs : List Byte) (q : Nat)
    (h : ∀ k, k < bs.length → q % Config.memSize ≠ (a + k) % Config.memSize) :
    (s.writeBytes a bs).memRead q = s.memRead q := by
  induction bs generalizing s a with
  | nil => rfl
  | cons b bs ih =>
    have h0 := h 0 (by simp)
    have hrest := ih (s.memWrite a b) (a + 1) fun k hk => by
      have := h (k + 1) (by simpa using hk)
      rwa [show a + 1 + k = a + (k + 1) by omega]
    rw [State.writeBytes, hrest, State.memRead_memWrite_other _ _ (by simpa using h0)]

/-- Each byte of a stored block of at most 4096 bytes reads back. -/
theorem State.memRead_writeBytes_inside {s : State} (hs : Memory.wf s.font s.mem = true) (a : Nat) (bs : List Byte)
    (hlen : bs.length ≤ Config.memSize) (k : Nat) (hk : k < bs.length) :
    (s.writeBytes a bs).memRead (a + k) = bs[k] := by
  induction bs generalizing s a k with
  | nil => simp at hk
  | cons b bs ih =>
    have hlen' : bs.length + 1 ≤ 4096 := by simpa [Config.memSize] using hlen
    cases k with
    | zero =>
      rw [State.writeBytes, State.memRead_writeBytes_outside]
      · rw [State.memRead_memWrite hs]; simp
      · intro j hj
        simp only [Config.memSize]
        omega
    | succ k =>
      have := ih (State.wf_memWrite hs a b) (a + 1) (by simp [Config.memSize]; omega) k (by simpa using hk)
      rw [State.writeBytes, show a + (k + 1) = a + 1 + k by omega, this]
      simp

theorem Memory.resetByte_font {a : Nat} (h : a < 80) : Memory.resetByte font a = font[a] := by
  simp [Memory.resetByte, List.getD, h]

theorem Memory.resetByte_above {a : Nat} (h : 80 ≤ a) : Memory.resetByte font a = 0x00#8 :=
  List.getD_eq_default _ _ (by simpa using h)

/-- Reset memory lists nothing, so it is canonical for every `FONT` (R28). -/
theorem State.resetWith_mem_wf (font : Config.Font) : Memory.wf font (State.resetWith font).mem = true := rfl

/-- A byte of reset memory is the reset content of its address (R28). -/
theorem State.memRead_resetWith (font : Config.Font) (a : Nat) :
    (State.resetWith font).memRead a = Memory.resetByte font (a % Config.memSize) := rfl

end Sys2Proof.Machine
end

