-- ==== Sys2Proof/Laws/Ops.lean ====
section
/-! SUPPORT. Laws of the shared operations over registers, call stack and framebuffer: for each, once, everything it can do. -/

namespace Sys2Proof.Machine

/-! ## General registers -/

/-- A register read after a register write (R10). -/
theorem State.getV_setV (s : State) (x r : Nibble) (b : Byte) :
    (s.setV x b).getV r = if r = x then b else s.getV r := by
  unfold State.getV
  simp only [setV_v, Vector.getElem_set, BitVec.toNat_inj]
  by_cases h : r = x
  · simp [h]
  · rw [if_neg (Ne.symm h), if_neg h]

@[simp] theorem State.getV_setV_self (s : State) (x : Nibble) (b : Byte) : (s.setV x b).getV x = b := by
  rw [State.getV_setV, if_pos rfl]

theorem State.getV_setV_other (s : State) {x r : Nibble} (b : Byte) (h : r ≠ x) : (s.setV x b).getV r = s.getV r := by
  rw [State.getV_setV, if_neg h]

/-- `VF` first, then `V[X]`: the result wins where X = 0xF (R75). -/
theorem State.getV_setFlagThenV (s : State) (c : Bool) (x r : Nibble) (b : Byte) :
    (s.setFlagThenV c x b).getV r = if r = x then b else if r = vf then flagByte c else s.getV r := by
  unfold State.setFlagThenV
  rw [State.getV_setV, State.getV_setV]

@[simp] theorem readRegs_length (s : State) (n : Nat) : (s.readRegs n).length = n := by simp [State.readRegs]

@[simp] theorem readRegs_getElem (s : State) (n k : Nat) (h : k < (s.readRegs n).length) :
    (s.readRegs n)[k] = s.getV (BitVec.ofNat 4 k) := by simp [State.readRegs]

@[simp] theorem readBytes_length (s : State) (a n : Nat) : (s.readBytes a n).length = n := by simp [State.readBytes]

@[simp] theorem readBytes_getElem (s : State) (a n k : Nat) (h : k < (s.readBytes a n).length) :
    (s.readBytes a n)[k] = s.memRead (a + k) := by simp [State.readBytes]

/-- The block load of FX65: register `r` gets its byte when it lies in the block, and stays otherwise (R145). -/
theorem State.getV_writeRegs (s : State) (k : Nat) (bs : List Byte) (hk : k + bs.length ≤ 16) (r : Nibble) :
    (s.writeRegs k bs).getV r = if h : k ≤ r.toNat ∧ r.toNat < k + bs.length then bs[r.toNat - k]'(by omega) else s.getV r := by
  induction bs generalizing s k with
  | nil =>
    rw [dif_neg (by simp)]; rfl
  | cons b bs ih =>
    have hlen : k + bs.length + 1 ≤ 16 := by simpa [Nat.add_assoc] using hk
    rw [State.writeRegs, ih _ _ (by omega)]
    have hr : r = BitVec.ofNat 4 k ↔ r.toNat = k := by
      rw [← BitVec.toNat_inj, BitVec.toNat_ofNat, Nat.mod_eq_of_lt (by omega)]
    by_cases h1 : r.toNat = k
    · rw [dif_neg (by omega), dif_pos (by simp [h1]), State.getV_setV, if_pos (hr.mpr h1)]
      simp [h1]
    · by_cases h2 : k + 1 ≤ r.toNat ∧ r.toNat < k + 1 + bs.length
      · rw [dif_pos h2, dif_pos (by simp; omega)]
        rw [List.getElem_cons, dif_neg (by omega)]
        congr 1
      · rw [dif_neg h2, dif_neg (by simp; omega), State.getV_setV, if_neg (fun h => h1 (hr.mp h))]

/-! ## Call stack -/

/-- What a push does with room on the stack (R17). -/
theorem State.push_of_lt {s : State} {w : Word} (h : s.sp.val < 16) :
    s.push w = some ((s.setEntry ⟨s.sp.val, h⟩ w).setSp ⟨s.sp.val + 1, by omega⟩) := dif_pos h

/-- A push with 16 entries in use fails (R17). -/
theorem State.push_of_full {s : State} {w : Word} (h : s.sp.val = 16) : s.push w = none := dif_neg (by omega)

/-- What a pop does with an entry on the stack (R17). -/
theorem State.pop_of_pos {s : State} (h : 0 < s.sp.val) :
    s.pop = some (s.stack[s.sp.val - 1]'(by omega), s.setSp ⟨s.sp.val - 1, by omega⟩) := dif_pos h

/-- A pop of an empty stack fails (R17). -/
theorem State.pop_of_empty {s : State} (h : s.sp.val = 0) : s.pop = none := dif_neg (by omega)

/-- An entry after an entry was written. -/
theorem State.stack_setEntry (s : State) (k j : Fin 16) (w : Word) :
    (s.setEntry k w).stack[j] = if j = k then w else s.stack[j] := by
  simp only [setEntry_stack, Fin.getElem_fin, Vector.getElem_set]
  by_cases h : j = k
  · simp [h]
  · rw [if_neg (fun e => h (Fin.ext e.symm)), if_neg h]

/-! ## Framebuffer -/

theorem pixelRow_column_inj {j k : Nat} (hj : j < Config.pixels) (hk : k < Config.pixels)
    (hr : pixelRow j = pixelRow k) (hc : pixelColumn j = pixelColumn k) : j = k := by
  simp only [pixelRow, pixelColumn, Fin.mk.injEq, Config.pixels, Config.rowPixels] at *
  omega

/-- A framebuffer row after a pixel was flipped. -/
theorem State.flipPixel_row (s : State) (k : Nat) (r : Fin 32) :
    (s.flipPixel k).fb[r] = if r = pixelRow k then s.fb[r] ^^^ BitVec.twoPow 64 (pixelColumn k) else s.fb[r] := by
  unfold State.flipPixel
  simp only [Fin.getElem_fin, Vector.getElem_set]
  by_cases h : r = pixelRow k
  · subst h; simp
  · rw [if_neg (fun e => h (Fin.ext e.symm)), if_neg h]

/-- A pixel after a pixel was flipped (R151). -/
theorem State.pixel_flipPixel (s : State) (j k : Nat) :
    (s.flipPixel k).pixel j = (s.pixel j ^^ decide (j % Config.pixels = k % Config.pixels)) := by
  have hcol : pixelColumn j < 64 := Nat.mod_lt _ (by decide)
  unfold State.pixel
  rw [State.flipPixel_row]
  by_cases hrow : pixelRow j = pixelRow k
  · rw [if_pos hrow, BitVec.getLsbD_xor, BitVec.getLsbD_twoPow]
    congr 1
    simp only [pixelRow, Fin.mk.injEq] at hrow
    simp only [pixelColumn, Config.pixels, Config.rowPixels] at *
    by_cases h : j % 2048 = k % 2048
    · have : k % 64 = j % 64 := by omega
      simp [h, this, hcol]
    · have : k % 64 ≠ j % 64 := by omega
      simp [h, this]
  · rw [if_neg hrow]
    have : j % Config.pixels ≠ k % Config.pixels := fun h => hrow (by simp only [pixelRow, h])
    simp [this]

@[simp] theorem State.pixel_clearScreen (s : State) (k : Nat) : s.clearScreen.pixel k = false := by
  simp [State.pixel]

/-! ## Blocks: what the stores and loads of a block leave alone -/

/-! ### `State.writeBytes` -/

@[simp] theorem writeBytes_v (s : State) (a : Nat) (bs : List Byte) : (s.writeBytes a bs).v = s.v := by
  induction bs generalizing s a with
  | nil => rfl
  | cons b bs ih => exact ih _ _
@[simp] theorem writeBytes_i (s : State) (a : Nat) (bs : List Byte) : (s.writeBytes a bs).i = s.i := by
  induction bs generalizing s a with
  | nil => rfl
  | cons b bs ih => exact ih _ _
@[simp] theorem writeBytes_pc (s : State) (a : Nat) (bs : List Byte) : (s.writeBytes a bs).pc = s.pc := by
  induction bs generalizing s a with
  | nil => rfl
  | cons b bs ih => exact ih _ _
@[simp] theorem writeBytes_stack (s : State) (a : Nat) (bs : List Byte) : (s.writeBytes a bs).stack = s.stack := by
  induction bs generalizing s a with
  | nil => rfl
  | cons b bs ih => exact ih _ _
@[simp] theorem writeBytes_sp (s : State) (a : Nat) (bs : List Byte) : (s.writeBytes a bs).sp = s.sp := by
  induction bs generalizing s a with
  | nil => rfl
  | cons b bs ih => exact ih _ _
@[simp] theorem writeBytes_dt (s : State) (a : Nat) (bs : List Byte) : (s.writeBytes a bs).dt = s.dt := by
  induction bs generalizing s a with
  | nil => rfl
  | cons b bs ih => exact ih _ _
@[simp] theorem writeBytes_st (s : State) (a : Nat) (bs : List Byte) : (s.writeBytes a bs).st = s.st := by
  induction bs generalizing s a with
  | nil => rfl
  | cons b bs ih => exact ih _ _
@[simp] theorem writeBytes_key (s : State) (a : Nat) (bs : List Byte) : (s.writeBytes a bs).key = s.key := by
  induction bs generalizing s a with
  | nil => rfl
  | cons b bs ih => exact ih _ _
@[simp] theorem writeBytes_fb (s : State) (a : Nat) (bs : List Byte) : (s.writeBytes a bs).fb = s.fb := by
  induction bs generalizing s a with
  | nil => rfl
  | cons b bs ih => exact ih _ _
@[simp] theorem writeBytes_drawReq (s : State) (a : Nat) (bs : List Byte) : (s.writeBytes a bs).drawReq = s.drawReq := by
  induction bs generalizing s a with
  | nil => rfl
  | cons b bs ih => exact ih _ _
@[simp] theorem writeBytes_halted (s : State) (a : Nat) (bs : List Byte) : (s.writeBytes a bs).halted = s.halted := by
  induction bs generalizing s a with
  | nil => rfl
  | cons b bs ih => exact ih _ _
@[simp] theorem writeBytes_faultKind (s : State) (a : Nat) (bs : List Byte) : (s.writeBytes a bs).faultKind = s.faultKind := by
  induction bs generalizing s a with
  | nil => rfl
  | cons b bs ih => exact ih _ _
@[simp] theorem writeBytes_faultOpcode (s : State) (a : Nat) (bs : List Byte) : (s.writeBytes a bs).faultOpcode = s.faultOpcode := by
  induction bs generalizing s a with
  | nil => rfl
  | cons b bs ih => exact ih _ _
@[simp] theorem writeBytes_faultPc (s : State) (a : Nat) (bs : List Byte) : (s.writeBytes a bs).faultPc = s.faultPc := by
  induction bs generalizing s a with
  | nil => rfl
  | cons b bs ih => exact ih _ _
@[simp] theorem writeBytes_status (s : State) (a : Nat) (bs : List Byte) : (s.writeBytes a bs).status = s.status := by
  induction bs generalizing s a with
  | nil => rfl
  | cons b bs ih => exact ih _ _
@[simp] theorem writeBytes_beep (s : State) (a : Nat) (bs : List Byte) : (s.writeBytes a bs).beep = s.beep := by
  induction bs generalizing s a with
  | nil => rfl
  | cons b bs ih => exact ih _ _
@[simp] theorem writeBytes_keyPress (s : State) (a : Nat) (bs : List Byte) : (s.writeBytes a bs).keyPress = s.keyPress := by
  induction bs generalizing s a with
  | nil => rfl
  | cons b bs ih => exact ih _ _
@[simp] theorem writeBytes_randByte (s : State) (a : Nat) (bs : List Byte) : (s.writeBytes a bs).randByte = s.randByte := by
  induction bs generalizing s a with
  | nil => rfl
  | cons b bs ih => exact ih _ _
@[simp] theorem writeBytes_font (s : State) (a : Nat) (bs : List Byte) : (s.writeBytes a bs).font = s.font := by
  induction bs generalizing s a with
  | nil => rfl
  | cons b bs ih => exact ih _ _
@[simp] theorem writeBytes_host (s : State) (a : Nat) (bs : List Byte) : (s.writeBytes a bs).host = s.host := by
  induction bs generalizing s a with
  | nil => rfl
  | cons b bs ih => exact ih _ _
@[simp] theorem writeBytes_draws (s : State) (a : Nat) (bs : List Byte) : (s.writeBytes a bs).draws = s.draws := by
  induction bs generalizing s a with
  | nil => rfl
  | cons b bs ih => exact ih _ _
@[simp] theorem writeBytes_getV (s : State) (a : Nat) (bs : List Byte) (q) : (s.writeBytes a bs).getV q = s.getV q := by
  simp only [State.getV, writeBytes_v]
@[simp] theorem writeBytes_pixel (s : State) (a : Nat) (bs : List Byte) (q) : (s.writeBytes a bs).pixel q = s.pixel q := by
  simp only [State.pixel, writeBytes_fb]

/-! ### `State.writeRegs` -/

@[simp] theorem writeRegs_i (s : State) (k : Nat) (bs : List Byte) : (s.writeRegs k bs).i = s.i := by
  induction bs generalizing s k with
  | nil => rfl
  | cons b bs ih => exact ih _ _
@[simp] theorem writeRegs_pc (s : State) (k : Nat) (bs : List Byte) : (s.writeRegs k bs).pc = s.pc := by
  induction bs generalizing s k with
  | nil => rfl
  | cons b bs ih => exact ih _ _
@[simp] theorem writeRegs_stack (s : State) (k : Nat) (bs : List Byte) : (s.writeRegs k bs).stack = s.stack := by
  induction bs generalizing s k with
  | nil => rfl
  | cons b bs ih => exact ih _ _
@[simp] theorem writeRegs_sp (s : State) (k : Nat) (bs : List Byte) : (s.writeRegs k bs).sp = s.sp := by
  induction bs generalizing s k with
  | nil => rfl
  | cons b bs ih => exact ih _ _
@[simp] theorem writeRegs_dt (s : State) (k : Nat) (bs : List Byte) : (s.writeRegs k bs).dt = s.dt := by
  induction bs generalizing s k with
  | nil => rfl
  | cons b bs ih => exact ih _ _
@[simp] theorem writeRegs_st (s : State) (k : Nat) (bs : List Byte) : (s.writeRegs k bs).st = s.st := by
  induction bs generalizing s k with
  | nil => rfl
  | cons b bs ih => exact ih _ _
@[simp] theorem writeRegs_key (s : State) (k : Nat) (bs : List Byte) : (s.writeRegs k bs).key = s.key := by
  induction bs generalizing s k with
  | nil => rfl
  | cons b bs ih => exact ih _ _
@[simp] theorem writeRegs_fb (s : State) (k : Nat) (bs : List Byte) : (s.writeRegs k bs).fb = s.fb := by
  induction bs generalizing s k with
  | nil => rfl
  | cons b bs ih => exact ih _ _
@[simp] theorem writeRegs_drawReq (s : State) (k : Nat) (bs : List Byte) : (s.writeRegs k bs).drawReq = s.drawReq := by
  induction bs generalizing s k with
  | nil => rfl
  | cons b bs ih => exact ih _ _
@[simp] theorem writeRegs_mem (s : State) (k : Nat) (bs : List Byte) : (s.writeRegs k bs).mem = s.mem := by
  induction bs generalizing s k with
  | nil => rfl
  | cons b bs ih => exact ih _ _
@[simp] theorem writeRegs_halted (s : State) (k : Nat) (bs : List Byte) : (s.writeRegs k bs).halted = s.halted := by
  induction bs generalizing s k with
  | nil => rfl
  | cons b bs ih => exact ih _ _
@[simp] theorem writeRegs_faultKind (s : State) (k : Nat) (bs : List Byte) : (s.writeRegs k bs).faultKind = s.faultKind := by
  induction bs generalizing s k with
  | nil => rfl
  | cons b bs ih => exact ih _ _
@[simp] theorem writeRegs_faultOpcode (s : State) (k : Nat) (bs : List Byte) : (s.writeRegs k bs).faultOpcode = s.faultOpcode := by
  induction bs generalizing s k with
  | nil => rfl
  | cons b bs ih => exact ih _ _
@[simp] theorem writeRegs_faultPc (s : State) (k : Nat) (bs : List Byte) : (s.writeRegs k bs).faultPc = s.faultPc := by
  induction bs generalizing s k with
  | nil => rfl
  | cons b bs ih => exact ih _ _
@[simp] theorem writeRegs_status (s : State) (k : Nat) (bs : List Byte) : (s.writeRegs k bs).status = s.status := by
  induction bs generalizing s k with
  | nil => rfl
  | cons b bs ih => exact ih _ _
@[simp] theorem writeRegs_beep (s : State) (k : Nat) (bs : List Byte) : (s.writeRegs k bs).beep = s.beep := by
  induction bs generalizing s k with
  | nil => rfl
  | cons b bs ih => exact ih _ _
@[simp] theorem writeRegs_keyPress (s : State) (k : Nat) (bs : List Byte) : (s.writeRegs k bs).keyPress = s.keyPress := by
  induction bs generalizing s k with
  | nil => rfl
  | cons b bs ih => exact ih _ _
@[simp] theorem writeRegs_randByte (s : State) (k : Nat) (bs : List Byte) : (s.writeRegs k bs).randByte = s.randByte := by
  induction bs generalizing s k with
  | nil => rfl
  | cons b bs ih => exact ih _ _
@[simp] theorem writeRegs_font (s : State) (k : Nat) (bs : List Byte) : (s.writeRegs k bs).font = s.font := by
  induction bs generalizing s k with
  | nil => rfl
  | cons b bs ih => exact ih _ _
@[simp] theorem writeRegs_host (s : State) (k : Nat) (bs : List Byte) : (s.writeRegs k bs).host = s.host := by
  induction bs generalizing s k with
  | nil => rfl
  | cons b bs ih => exact ih _ _
@[simp] theorem writeRegs_draws (s : State) (k : Nat) (bs : List Byte) : (s.writeRegs k bs).draws = s.draws := by
  induction bs generalizing s k with
  | nil => rfl
  | cons b bs ih => exact ih _ _
@[simp] theorem writeRegs_memRead (s : State) (k : Nat) (bs : List Byte) (q) : (s.writeRegs k bs).memRead q = s.memRead q := by
  simp only [State.memRead, writeRegs_mem, writeRegs_font]
@[simp] theorem writeRegs_pixel (s : State) (k : Nat) (bs : List Byte) (q) : (s.writeRegs k bs).pixel q = s.pixel q := by
  simp only [State.pixel, writeRegs_fb]

/-! ## How an execution ends -/

@[simp] theorem complete_eq (s : State) : s.complete = .next (s.setStatus .done) := rfl

@[simp] theorem needsKey_eq (s : State) : s.needsKey = .next (s.setStatus .needsKey) := rfl

@[simp] theorem fatal_eq (s : State) (k : FatalKind) (w : Word) : s.fatal k w = .next (s.raiseFatal k w) := rfl

/-- A timer after a tick, as a number: one less, never negative (R195). -/
theorem tickByte_toNat (b : Byte) : (tickByte b).toNat = b.toNat - 1 := by
  unfold tickByte
  split
  · rename_i h
    rw [h]
    rfl
  · rename_i h
    have hb : b.toNat ≠ 0 := fun e => h (BitVec.eq_of_toNat_eq e)
    have := b.isLt
    rw [BitVec.toNat_sub, show (1 : Byte).toNat = 1 from rfl]
    omega

/-- The end of a completed cycle: the tick, then fresh inputs (R76, R195). -/
theorem endCycle_done {s : State} (h : s.status = some .done) : s.endCycle = s.tick.freshInputs := by
  rw [State.endCycle, if_pos h]

/-- The end of any other cycle: no tick and no beep (R76, D8). -/
theorem endCycle_not_done {s : State} (h : s.status ≠ some .done) : s.endCycle = s.silent.freshInputs := by
  rw [State.endCycle, if_neg h]

end Sys2Proof.Machine
end

