-- ==== Sys2Proof/Laws/Display.lean ====
section
/-! SUPPORT. Laws of the sprite drawing of DXYN (spec/44_display.md): which pixels a sprite names, that it names none twice
(R151 (f)), and what the double loop does to the framebuffer and to the collision flag. -/

namespace Sys2Proof.Machine

/-! ## Which pixels a sprite names -/

theorem pixelIndex_lt (vx vy : Byte) (r c : Nat) : pixelIndex vx vy r c < Config.pixels := Nat.mod_lt _ (by decide)

/-- Distinct bits of a sprite of at most 32 rows fall on distinct pixels (R151 (f)). -/
theorem pixelIndex_inj (vx vy : Byte) {r r' c c' : Nat} (hr : r < 31) (hr' : r' < 31) (hc : c < 8) (hc' : c' < 8)
    (h : pixelIndex vx vy r c = pixelIndex vx vy r' c') : r = r' ∧ c = c' := by
  simp only [pixelIndex, Config.pixels] at h
  omega

theorem mem_rowPixels {vx vy : Byte} {r : Nat} {b : Byte} {k : Nat} :
    k ∈ rowPixels vx vy r b ↔ ∃ c, c < 8 ∧ spriteBit b c = true ∧ pixelIndex vx vy r c = k := by
  simp [rowPixels, and_assoc]

theorem mem_spritePixels {vx vy : Byte} {r₀ : Nat} {bs : List Byte} {k : Nat} :
    k ∈ spritePixels vx vy r₀ bs ↔
      ∃ (r : Nat) (h : r < bs.length) (c : Nat), c < 8 ∧ spriteBit bs[r] c = true ∧ pixelIndex vx vy (r₀ + r) c = k := by
  induction bs generalizing r₀ with
  | nil => simp [spritePixels]
  | cons b bs ih =>
    rw [spritePixels, List.mem_append, mem_rowPixels, ih]
    constructor
    · rintro (⟨c, hc, hb, hk⟩ | ⟨r, h, c, hc, hb, hk⟩)
      · exact ⟨0, by simp, c, hc, by simpa using hb, by simpa using hk⟩
      · exact ⟨r + 1, by simpa using h, c, hc, by simpa using hb, by rw [← hk]; congr 1; omega⟩
    · rintro ⟨r, h, c, hc, hb, hk⟩
      cases r with
      | zero => exact .inl ⟨c, hc, by simpa using hb, by simpa using hk⟩
      | succ r =>
        exact .inr ⟨r, by simpa using h, c, hc, by simpa using hb, by rw [← hk]; congr 1; omega⟩

theorem spritePixels_lt {vx vy : Byte} {r₀ : Nat} {bs : List Byte} {k : Nat} (h : k ∈ spritePixels vx vy r₀ bs) :
    k < Config.pixels := by
  obtain ⟨r, _, c, _, _, rfl⟩ := mem_spritePixels.mp h
  exact pixelIndex_lt _ _ _ _

theorem rowPixels_nodup (vx vy : Byte) {r : Nat} (hr : r < 31) (b : Byte) : (rowPixels vx vy r b).Nodup := by
  unfold rowPixels
  refine List.Nodup.map_on ?_ (List.nodup_range.filter _)
  intro c hc c' hc' h
  simp only [List.mem_filter, List.mem_range] at hc hc'
  exact (pixelIndex_inj vx vy hr hr hc.1 hc'.1 h).2

/-- No pixel is visited twice within one draw (R151 (f)). -/
theorem spritePixels_nodup (vx vy : Byte) {r₀ : Nat} {bs : List Byte} (h : r₀ + bs.length ≤ 31) :
    (spritePixels vx vy r₀ bs).Nodup := by
  induction bs generalizing r₀ with
  | nil => exact List.nodup_nil
  | cons b bs ih =>
    have hlen : r₀ + bs.length + 1 ≤ 31 := by simpa [Nat.add_assoc] using h
    rw [spritePixels, List.nodup_append]
    refine ⟨rowPixels_nodup vx vy (by omega) b, ih (by omega), ?_⟩
    intro k hk k' hk' hkk
    subst hkk
    obtain ⟨c, hc, _, hi⟩ := mem_rowPixels.mp hk
    obtain ⟨r, hr, c', hc', _, hi'⟩ := mem_spritePixels.mp hk'
    have := (pixelIndex_inj vx vy (by omega) (by omega) hc hc' (hi.trans hi'.symm)).1
    omega

/-! ## The loop -/

/-- After a list of flips a pixel is what it was, flipped once for each time the list names it. -/
theorem pixel_foldl_drawPixel (p : State × Bool) (ks : List Nat) (hks : ∀ k ∈ ks, k < Config.pixels) (j : Nat) (hj : j < Config.pixels) :
    (ks.foldl State.drawPixel p).1.pixel j = (p.1.pixel j ^^ decide (ks.count j % 2 = 1)) := by
  induction ks generalizing p with
  | nil => simp
  | cons k ks ih =>
    rw [List.foldl_cons, ih _ (fun k' h => hks k' (List.mem_cons_of_mem _ h))]
    have hk := hks k List.mem_cons_self
    simp only [State.drawPixel, State.pixel_flipPixel, Nat.mod_eq_of_lt hj, Nat.mod_eq_of_lt hk, List.count_cons]
    by_cases h : j = k
    · subst h
      simp
      cases Nat.mod_two_eq_zero_or_one (ks.count j) with
      | inl h0 => simp [h0, Nat.add_mod]
      | inr h1 => simp [h1, Nat.add_mod]
    · simp [h, Ne.symm h]

/-- The collision flag of a list of flips of distinct pixels: was any of them set before the draw (R151 (f), R152). -/
theorem collision_foldl_drawPixel (p : State × Bool) (ks : List Nat) (hks : ∀ k ∈ ks, k < Config.pixels) (hn : ks.Nodup) :
    (ks.foldl State.drawPixel p).2 = (p.2 || ks.any p.1.pixel) := by
  induction ks generalizing p with
  | nil => simp
  | cons k ks ih =>
    obtain ⟨hk, hn'⟩ := List.nodup_cons.mp hn
    rw [List.foldl_cons, ih _ (fun k' h => hks k' (List.mem_cons_of_mem _ h)) hn', List.any_cons]
    have hsame : ks.any (p.1.flipPixel k).pixel = ks.any p.1.pixel := by
      rw [Bool.eq_iff_iff, List.any_eq_true, List.any_eq_true]
      refine exists_congr fun j => and_congr_right fun hj => ?_
      have hjk : j ≠ k := fun e => hk (e ▸ hj)
      rw [State.pixel_flipPixel, Nat.mod_eq_of_lt (hks j (List.mem_cons_of_mem _ hj)),
        Nat.mod_eq_of_lt (hks k List.mem_cons_self)]
      simp [hjk]
    simp only [State.drawPixel, hsame, Bool.or_assoc]

/-- Does the sprite of these rows, drawn at `(vx, vy)`, name pixel `k`? -/
theorem drawSprite_pixel (s : State) (vx vy : Byte) (bs : List Byte) (h : bs.length ≤ 31) (j : Nat) (hj : j < Config.pixels) :
    (s.drawSprite vx vy bs).1.pixel j = (s.pixel j ^^ decide (j ∈ spritePixels vx vy 0 bs)) := by
  unfold State.drawSprite
  rw [pixel_foldl_drawPixel _ _ (fun k hk => spritePixels_lt hk) j hj]
  congr 2
  have hn := spritePixels_nodup vx vy (r₀ := 0) (bs := bs) (by omega)
  by_cases hm : j ∈ spritePixels vx vy 0 bs
  · simp [hm, List.count_eq_one_of_mem hn hm]
  · simp [hm, List.count_eq_zero_of_not_mem hm]

/-- The collision flag of a draw: was any pixel the sprite names set before it (R152). -/
theorem drawSprite_collision (s : State) (vx vy : Byte) (bs : List Byte) (h : bs.length ≤ 31) :
    (s.drawSprite vx vy bs).2 = (spritePixels vx vy 0 bs).any s.pixel := by
  unfold State.drawSprite
  rw [collision_foldl_drawPixel _ _ (fun k hk => spritePixels_lt hk) (spritePixels_nodup vx vy (by omega))]
  simp

/-! ## What a draw leaves alone -/

@[simp] theorem foldl_drawPixel_v (p : State × Bool) (ks : List Nat) :
    (ks.foldl State.drawPixel p).1.v = p.1.v := by
  induction ks generalizing p with
  | nil => rfl
  | cons k ks ih => exact ih _
@[simp] theorem foldl_drawPixel_i (p : State × Bool) (ks : List Nat) :
    (ks.foldl State.drawPixel p).1.i = p.1.i := by
  induction ks generalizing p with
  | nil => rfl
  | cons k ks ih => exact ih _
@[simp] theorem foldl_drawPixel_pc (p : State × Bool) (ks : List Nat) :
    (ks.foldl State.drawPixel p).1.pc = p.1.pc := by
  induction ks generalizing p with
  | nil => rfl
  | cons k ks ih => exact ih _
@[simp] theorem foldl_drawPixel_stack (p : State × Bool) (ks : List Nat) :
    (ks.foldl State.drawPixel p).1.stack = p.1.stack := by
  induction ks generalizing p with
  | nil => rfl
  | cons k ks ih => exact ih _
@[simp] theorem foldl_drawPixel_sp (p : State × Bool) (ks : List Nat) :
    (ks.foldl State.drawPixel p).1.sp = p.1.sp := by
  induction ks generalizing p with
  | nil => rfl
  | cons k ks ih => exact ih _
@[simp] theorem foldl_drawPixel_dt (p : State × Bool) (ks : List Nat) :
    (ks.foldl State.drawPixel p).1.dt = p.1.dt := by
  induction ks generalizing p with
  | nil => rfl
  | cons k ks ih => exact ih _
@[simp] theorem foldl_drawPixel_st (p : State × Bool) (ks : List Nat) :
    (ks.foldl State.drawPixel p).1.st = p.1.st := by
  induction ks generalizing p with
  | nil => rfl
  | cons k ks ih => exact ih _
@[simp] theorem foldl_drawPixel_key (p : State × Bool) (ks : List Nat) :
    (ks.foldl State.drawPixel p).1.key = p.1.key := by
  induction ks generalizing p with
  | nil => rfl
  | cons k ks ih => exact ih _
@[simp] theorem foldl_drawPixel_drawReq (p : State × Bool) (ks : List Nat) :
    (ks.foldl State.drawPixel p).1.drawReq = p.1.drawReq := by
  induction ks generalizing p with
  | nil => rfl
  | cons k ks ih => exact ih _
@[simp] theorem foldl_drawPixel_mem (p : State × Bool) (ks : List Nat) :
    (ks.foldl State.drawPixel p).1.mem = p.1.mem := by
  induction ks generalizing p with
  | nil => rfl
  | cons k ks ih => exact ih _
@[simp] theorem foldl_drawPixel_halted (p : State × Bool) (ks : List Nat) :
    (ks.foldl State.drawPixel p).1.halted = p.1.halted := by
  induction ks generalizing p with
  | nil => rfl
  | cons k ks ih => exact ih _
@[simp] theorem foldl_drawPixel_faultKind (p : State × Bool) (ks : List Nat) :
    (ks.foldl State.drawPixel p).1.faultKind = p.1.faultKind := by
  induction ks generalizing p with
  | nil => rfl
  | cons k ks ih => exact ih _
@[simp] theorem foldl_drawPixel_faultOpcode (p : State × Bool) (ks : List Nat) :
    (ks.foldl State.drawPixel p).1.faultOpcode = p.1.faultOpcode := by
  induction ks generalizing p with
  | nil => rfl
  | cons k ks ih => exact ih _
@[simp] theorem foldl_drawPixel_faultPc (p : State × Bool) (ks : List Nat) :
    (ks.foldl State.drawPixel p).1.faultPc = p.1.faultPc := by
  induction ks generalizing p with
  | nil => rfl
  | cons k ks ih => exact ih _
@[simp] theorem foldl_drawPixel_status (p : State × Bool) (ks : List Nat) :
    (ks.foldl State.drawPixel p).1.status = p.1.status := by
  induction ks generalizing p with
  | nil => rfl
  | cons k ks ih => exact ih _
@[simp] theorem foldl_drawPixel_beep (p : State × Bool) (ks : List Nat) :
    (ks.foldl State.drawPixel p).1.beep = p.1.beep := by
  induction ks generalizing p with
  | nil => rfl
  | cons k ks ih => exact ih _
@[simp] theorem foldl_drawPixel_keyPress (p : State × Bool) (ks : List Nat) :
    (ks.foldl State.drawPixel p).1.keyPress = p.1.keyPress := by
  induction ks generalizing p with
  | nil => rfl
  | cons k ks ih => exact ih _
@[simp] theorem foldl_drawPixel_randByte (p : State × Bool) (ks : List Nat) :
    (ks.foldl State.drawPixel p).1.randByte = p.1.randByte := by
  induction ks generalizing p with
  | nil => rfl
  | cons k ks ih => exact ih _
@[simp] theorem foldl_drawPixel_font (p : State × Bool) (ks : List Nat) :
    (ks.foldl State.drawPixel p).1.font = p.1.font := by
  induction ks generalizing p with
  | nil => rfl
  | cons k ks ih => exact ih _
@[simp] theorem foldl_drawPixel_host (p : State × Bool) (ks : List Nat) :
    (ks.foldl State.drawPixel p).1.host = p.1.host := by
  induction ks generalizing p with
  | nil => rfl
  | cons k ks ih => exact ih _
@[simp] theorem foldl_drawPixel_draws (p : State × Bool) (ks : List Nat) :
    (ks.foldl State.drawPixel p).1.draws = p.1.draws := by
  induction ks generalizing p with
  | nil => rfl
  | cons k ks ih => exact ih _
@[simp] theorem drawSprite_v (s : State) (vx vy : Byte) (bs : List Byte) :
    (s.drawSprite vx vy bs).1.v = s.v := foldl_drawPixel_v _ _
@[simp] theorem drawSprite_i (s : State) (vx vy : Byte) (bs : List Byte) :
    (s.drawSprite vx vy bs).1.i = s.i := foldl_drawPixel_i _ _
@[simp] theorem drawSprite_pc (s : State) (vx vy : Byte) (bs : List Byte) :
    (s.drawSprite vx vy bs).1.pc = s.pc := foldl_drawPixel_pc _ _
@[simp] theorem drawSprite_stack (s : State) (vx vy : Byte) (bs : List Byte) :
    (s.drawSprite vx vy bs).1.stack = s.stack := foldl_drawPixel_stack _ _
@[simp] theorem drawSprite_sp (s : State) (vx vy : Byte) (bs : List Byte) :
    (s.drawSprite vx vy bs).1.sp = s.sp := foldl_drawPixel_sp _ _
@[simp] theorem drawSprite_dt (s : State) (vx vy : Byte) (bs : List Byte) :
    (s.drawSprite vx vy bs).1.dt = s.dt := foldl_drawPixel_dt _ _
@[simp] theorem drawSprite_st (s : State) (vx vy : Byte) (bs : List Byte) :
    (s.drawSprite vx vy bs).1.st = s.st := foldl_drawPixel_st _ _
@[simp] theorem drawSprite_key (s : State) (vx vy : Byte) (bs : List Byte) :
    (s.drawSprite vx vy bs).1.key = s.key := foldl_drawPixel_key _ _
@[simp] theorem drawSprite_drawReq (s : State) (vx vy : Byte) (bs : List Byte) :
    (s.drawSprite vx vy bs).1.drawReq = s.drawReq := foldl_drawPixel_drawReq _ _
@[simp] theorem drawSprite_mem (s : State) (vx vy : Byte) (bs : List Byte) :
    (s.drawSprite vx vy bs).1.mem = s.mem := foldl_drawPixel_mem _ _
@[simp] theorem drawSprite_halted (s : State) (vx vy : Byte) (bs : List Byte) :
    (s.drawSprite vx vy bs).1.halted = s.halted := foldl_drawPixel_halted _ _
@[simp] theorem drawSprite_faultKind (s : State) (vx vy : Byte) (bs : List Byte) :
    (s.drawSprite vx vy bs).1.faultKind = s.faultKind := foldl_drawPixel_faultKind _ _
@[simp] theorem drawSprite_faultOpcode (s : State) (vx vy : Byte) (bs : List Byte) :
    (s.drawSprite vx vy bs).1.faultOpcode = s.faultOpcode := foldl_drawPixel_faultOpcode _ _
@[simp] theorem drawSprite_faultPc (s : State) (vx vy : Byte) (bs : List Byte) :
    (s.drawSprite vx vy bs).1.faultPc = s.faultPc := foldl_drawPixel_faultPc _ _
@[simp] theorem drawSprite_status (s : State) (vx vy : Byte) (bs : List Byte) :
    (s.drawSprite vx vy bs).1.status = s.status := foldl_drawPixel_status _ _
@[simp] theorem drawSprite_beep (s : State) (vx vy : Byte) (bs : List Byte) :
    (s.drawSprite vx vy bs).1.beep = s.beep := foldl_drawPixel_beep _ _
@[simp] theorem drawSprite_keyPress (s : State) (vx vy : Byte) (bs : List Byte) :
    (s.drawSprite vx vy bs).1.keyPress = s.keyPress := foldl_drawPixel_keyPress _ _
@[simp] theorem drawSprite_randByte (s : State) (vx vy : Byte) (bs : List Byte) :
    (s.drawSprite vx vy bs).1.randByte = s.randByte := foldl_drawPixel_randByte _ _
@[simp] theorem drawSprite_font (s : State) (vx vy : Byte) (bs : List Byte) :
    (s.drawSprite vx vy bs).1.font = s.font := foldl_drawPixel_font _ _
@[simp] theorem drawSprite_host (s : State) (vx vy : Byte) (bs : List Byte) :
    (s.drawSprite vx vy bs).1.host = s.host := foldl_drawPixel_host _ _
@[simp] theorem drawSprite_draws (s : State) (vx vy : Byte) (bs : List Byte) :
    (s.drawSprite vx vy bs).1.draws = s.draws := foldl_drawPixel_draws _ _
@[simp] theorem drawSprite_getV (s : State) (vx vy : Byte) (bs : List Byte) (q) :
    (s.drawSprite vx vy bs).1.getV q = s.getV q := by
  simp only [State.getV, drawSprite_v]
@[simp] theorem drawSprite_memRead (s : State) (vx vy : Byte) (bs : List Byte) (q) :
    (s.drawSprite vx vy bs).1.memRead q = s.memRead q := by
  simp only [State.memRead, drawSprite_mem, drawSprite_font]

end Sys2Proof.Machine
end

