-- ==== Sys2Proof/Laws/Exec.lean ====
section
/-! SUPPORT. Everything an execution, a cycle and a step can do, said once: the instructions with more than one outcome, the three
ways an execution ends, the two ways a cycle begins, the moves of the host. -/

namespace Sys2Proof.Machine

open Sys2Proof.Safety

/-! ## The named premises as they read in a goal -/

@[simp] theorem running_iff (s : State) : Running s ↔ s.halted = false := Iff.rfl

@[simp] theorem faulted_iff (s : State) : Faulted s ↔ s.halted = true := Iff.rfl

@[simp] theorem stackEmpty_iff (s : State) : StackEmpty s ↔ s.sp.val = 0 := Iff.rfl

/-! ## The instructions with more than one outcome -/

/-- 00EE with an entry on the stack (R101). -/
theorem exec_ret_pos {s : State} (h : 0 < s.sp.val) :
    exec .ret s = .next (((s.setSp ⟨s.sp.val - 1, by omega⟩).setPc (s.stack[s.sp.val - 1]'(by omega) + 2)).setStatus .done) := by
  simp only [exec, execRet, State.pop_of_pos h, complete_eq]

/-- 00EE with an empty stack (R101, R183). -/
theorem exec_ret_empty {s : State} (h : s.sp.val = 0) :
    exec .ret s = .next (s.raiseFatal .stackUnderflow (encodeWord .ret)) := by
  simp only [exec, execRet, State.pop_of_empty h, fatal_eq]

/-- 2NNN with room on the stack (R103). -/
theorem exec_call_lt {s : State} (nnn : Addr12) (h : s.sp.val < 16) :
    exec (.call nnn) s = .next ((((s.setEntry ⟨s.sp.val, h⟩ s.pc).setSp ⟨s.sp.val + 1, by omega⟩).setPc
      (addrOperand nnn)).setStatus .done) := by
  simp only [exec, execCall, State.push_of_lt h, complete_eq]

/-- 2NNN with 16 entries in use (R103, R182). -/
theorem exec_call_full {s : State} (nnn : Addr12) (h : s.sp.val = 16) :
    exec (.call nnn) s = .next (s.raiseFatal .stackOverflow (encodeWord (.call nnn))) := by
  simp only [exec, execCall, State.push_of_full h, fatal_eq]

/-- FX0A with no press offered (R162). -/
theorem exec_ldKey_none {s : State} (x : Nibble) (h : s.keyPress = none) :
    exec (.ldKey x) s = .next (s.setStatus .needsKey) := by
  simp only [exec, execLdKey, h, needsKey_eq]

/-- FX0A with a press offered (R162). -/
theorem exec_ldKey_some {s : State} (x : Nibble) {c : Nibble} (h : s.keyPress = some c) :
    exec (.ldKey x) s = .next ((s.setV x (c.zeroExtend 8)).advance.setStatus .done) := by
  simp only [exec, execLdKey, h, complete_eq]

/-! ## How an execution ends -/

/-- The fatal error an instruction raises in a state, if any (R180, R186). -/
def fatalOf (i : Instr) (s : State) (k : FatalKind) : Prop :=
  (k = .unsupportedOpcode ∧ ∃ nnn, i = .sys nnn) ∨ (k = .stackOverflow ∧ s.sp.val = 16 ∧ ∃ nnn, i = .call nnn) ∨
  (k = .stackUnderflow ∧ s.sp.val = 0 ∧ i = .ret)

/-- The three ways an execution can end (R77): DONE with the latch, the record and the ports untouched; NEEDS_KEY with nothing
changed; the entry into the fatal state with nothing else changed. -/
theorem exec_cases {i : Instr} {s t : State} (h : exec i s = .next t) :
    (t.status = some .done ∧ SameFaultRecord s t ∧ SamePorts s t) ∨
    ((∃ x, i = .ldKey x) ∧ s.keyPress = none ∧ t = s.setStatus .needsKey) ∨
    ∃ k, fatalOf i s k ∧ t = s.raiseFatal k (encodeWord i) := by
  cases i
  case ret =>
    by_cases hs : s.sp.val = 0
    · rw [exec_ret_empty hs] at h
      cases h
      exact .inr (.inr ⟨_, .inr (.inr ⟨rfl, hs, rfl⟩), rfl⟩)
    · rw [exec_ret_pos (by omega)] at h
      cases h
      exact .inl (by simp [SameFaultRecord, SamePorts])
  case call nnn =>
    by_cases hs : s.sp.val = 16
    · rw [exec_call_full nnn hs] at h
      cases h
      exact .inr (.inr ⟨_, .inr (.inl ⟨rfl, hs, nnn, rfl⟩), rfl⟩)
    · rw [exec_call_lt nnn (by omega)] at h
      cases h
      exact .inl (by simp [SameFaultRecord, SamePorts])
  case ldKey x =>
    cases hk : s.keyPress with
    | none =>
      rw [exec_ldKey_none x hk] at h
      cases h
      exact .inr (.inl ⟨⟨x, rfl⟩, rfl, rfl⟩)
    | some c =>
      rw [exec_ldKey_some x hk] at h
      cases h
      exact .inl (by simp [SameFaultRecord, SamePorts, hk])
  case sys nnn =>
    cases h
    exact .inr (.inr ⟨_, .inl ⟨rfl, nnn, rfl⟩, rfl⟩)
  all_goals
    cases h
    exact .inl (by simp [SameFaultRecord, SamePorts])

/-! ## How a cycle begins -/

/-- A step with a cycle in front is that cycle (R30). -/
theorem step_of_aboutToCycle {s u : State} (h : AboutToCycle s u) : step s = u.cycle := by
  obtain ⟨h, rfl⟩ | ⟨k, r, rest, h, rfl⟩ := h <;> simp [step, State.hostStep, State.applyMove, h]

/-- A cycle of a halted core (R25, R187). -/
theorem cycle_halted {s : State} (h : s.halted = true) : s.cycle = .next s.haltedCycle.endCycle := if_pos h

/-- A cycle that fetches an instruction (R76). -/
theorem cycle_ok {s : State} {i : Instr} (h : s.halted = false) (hf : s.fetchDecode = .ok i) :
    s.cycle = afterExec (exec i s) := by
  simp [State.cycle, h, hf]

/-- A cycle that fetches an unassigned word (R72, R76). -/
theorem cycle_error {s : State} {w : Word} (h : s.halted = false) (hf : s.fetchDecode = .error (.unassigned w)) :
    s.cycle = .next (s.raiseFatal .unsupportedOpcode w).endCycle := by
  simp [State.cycle, h, hf, afterExec]

/-- The decoder reads the word that a fetch gives (R44, R60). -/
theorem fetchDecode_eq (s : State) : s.fetchDecode = decodeWord (s.fetch16 s.pc) := rfl

/-- When a load happens, and what it does (R32, R213). -/
theorem applyLoad_next {s t : State} {rom : List Byte} (h : s.applyLoad rom = .next t) :
    s.status = none ∧ rom.length ≤ Config.maxRom ∧ t = s.writeBytes Config.entry rom := by
  unfold State.applyLoad at h
  split at h
  · cases h
  · split at h
    · cases h
    · exact ⟨not_not.mp ‹_›, Nat.not_lt.mp ‹_›, (Host.Outcome.next.inj h).symm⟩

/-- Everything a step can do: a cycle, or one of the four moves between cycles (R216). -/
theorem step_cases {s t : State} (h : step s = .next t) :
    (∃ u, AboutToCycle s u ∧ u.cycle = .next t) ∨
    (∃ keys rest, s.host = .writeKeys keys :: rest ∧ t = (s.setHost rest).applyKeys keys) ∨
    (∃ rest, s.host = .consumeFrame :: rest ∧ t = (s.setHost rest).applyConsumeFrame) ∨
    (∃ rest, s.host = .reset :: rest ∧ t = (s.setHost rest).applyReset) ∨
    ∃ rom rest, s.host = .load rom :: rest ∧ s.status = none ∧ rom.length ≤ Config.maxRom ∧
      t = (s.setHost rest).writeBytes Config.entry rom := by
  unfold step State.hostStep at h
  match hh : s.host with
  | [] => exact .inl ⟨s, .inl ⟨hh, rfl⟩, by simpa [hh] using h⟩
  | .cycle k r :: rest => exact .inl ⟨_, .inr ⟨k, r, rest, hh, rfl⟩, by simpa [hh, State.applyMove] using h⟩
  | .writeKeys keys :: rest =>
    simp only [hh, State.applyMove] at h
    exact .inr (.inl ⟨keys, rest, rfl, (Host.Outcome.next.inj h).symm⟩)
  | .consumeFrame :: rest =>
    simp only [hh, State.applyMove] at h
    exact .inr (.inr (.inl ⟨rest, rfl, (Host.Outcome.next.inj h).symm⟩))
  | .reset :: rest =>
    simp only [hh, State.applyMove] at h
    exact .inr (.inr (.inr (.inl ⟨rest, rfl, (Host.Outcome.next.inj h).symm⟩)))
  | .load rom :: rest =>
    simp only [hh, State.applyMove] at h
    obtain ⟨hs, hl, rfl⟩ := applyLoad_next h
    exact .inr (.inr (.inr (.inr ⟨rom, rest, rfl, hs, hl, rfl⟩)))

end Sys2Proof.Machine
end

