-- ==== Sys2Proof/Laws/PerInstr.lean ====
section
/-! SUPPORT. Statements made per instruction. Family `EncodesItsRow`: the encoder, written from the patterns of R65, gives a word
that satisfies the mask and match of the instruction's own row of the opcode table (spec/30_encoding.md R65). -/

namespace Sys2Proof.Laws.EncodesItsRow

open Sys2Proof.Safety

/-- The row of the table with a given number. -/
def rowOf (n : Nat) : OpcodeRow := opcodeTable.getD (n - 1) ⟨0, 0, 0⟩

/-- The word of `i` satisfies the mask and match of the row of `i` (R65). -/
def Statement (i : Instr) : Prop := encodeWord i &&& (rowOf (rowNumber i)).mask = (rowOf (rowNumber i)).value

theorem and_nibble (n : Nibble) : n &&& 15#4 = n := BitVec.and_allOnes

theorem and_byte (b : Byte) : b &&& 255#8 = b := BitVec.and_allOnes

/-- A word of format NNN under the mask of the top nibble. -/
theorem and_top_wordNNN (op : Nibble) (nnn : Addr12) : wordNNN op nnn &&& 0xF000#16 = op ++ 0#12 := by
  rw [show (0xF000#16) = (0xF#4 ++ 0#12 : Word) from rfl, wordNNN, BitVec.and_append]
  simp [and_nibble]

/-- A word of format XKK under the mask of the top nibble. -/
theorem and_top_wordXKK (op x : Nibble) (kk : Byte) : wordXKK op x kk &&& 0xF000#16 = op ++ 0#12 := by
  rw [show (0xF000#16) = (0xF#4 ++ (0#4 ++ 0#8) : Word) from rfl, wordXKK, BitVec.and_append, BitVec.and_append]
  simp [and_nibble]

/-- A word of format Xkk under the mask of the top nibble and the low byte. -/
theorem and_key_wordXKK (op x : Nibble) (kk : Byte) : wordXKK op x kk &&& 0xF0FF#16 = op ++ (0#4 ++ kk) := by
  rw [show (0xF0FF#16) = (0xF#4 ++ (0#4 ++ 0xFF#8) : Word) from rfl, wordXKK, BitVec.and_append, BitVec.and_append]
  simp [and_nibble, and_byte]

/-- A word of format XYN under the mask of the top nibble. -/
theorem and_top_wordXYN (op x y n : Nibble) : wordXYN op x y n &&& 0xF000#16 = op ++ 0#12 := by
  rw [show (0xF000#16) = (0xF#4 ++ (0#4 ++ (0#4 ++ 0#4)) : Word) from rfl, wordXYN, BitVec.and_append, BitVec.and_append,
    BitVec.and_append]
  simp [and_nibble]

/-- A word of format XYn under the mask of the top and the low nibble. -/
theorem and_ends_wordXYN (op x y n : Nibble) : wordXYN op x y n &&& 0xF00F#16 = op ++ (0#4 ++ (0#4 ++ n)) := by
  rw [show (0xF00F#16) = (0xF#4 ++ (0#4 ++ (0#4 ++ 0xF#4)) : Word) from rfl, wordXYN, BitVec.and_append, BitVec.and_append,
    BitVec.and_append]
  simp [and_nibble]

theorem cls : Statement .cls := rfl

theorem ret : Statement .ret := rfl

theorem sys (nnn : Addr12) : Statement (.sys nnn) := and_top_wordNNN _ _

theorem jp (nnn : Addr12) : Statement (.jp nnn) := and_top_wordNNN _ _

theorem call (nnn : Addr12) : Statement (.call nnn) := and_top_wordNNN _ _

theorem seImm (x : Nibble) (kk : Byte) : Statement (.seImm x kk) := and_top_wordXKK _ _ _

theorem sneImm (x : Nibble) (kk : Byte) : Statement (.sneImm x kk) := and_top_wordXKK _ _ _

theorem seReg (x : Nibble) (y : Nibble) : Statement (.seReg x y) := and_ends_wordXYN _ _ _ _

theorem ldImm (x : Nibble) (kk : Byte) : Statement (.ldImm x kk) := and_top_wordXKK _ _ _

theorem addImm (x : Nibble) (kk : Byte) : Statement (.addImm x kk) := and_top_wordXKK _ _ _

theorem ldReg (x : Nibble) (y : Nibble) : Statement (.ldReg x y) := and_ends_wordXYN _ _ _ _

theorem orReg (x : Nibble) (y : Nibble) : Statement (.orReg x y) := and_ends_wordXYN _ _ _ _

theorem andReg (x : Nibble) (y : Nibble) : Statement (.andReg x y) := and_ends_wordXYN _ _ _ _

theorem xorReg (x : Nibble) (y : Nibble) : Statement (.xorReg x y) := and_ends_wordXYN _ _ _ _

theorem addReg (x : Nibble) (y : Nibble) : Statement (.addReg x y) := and_ends_wordXYN _ _ _ _

theorem subReg (x : Nibble) (y : Nibble) : Statement (.subReg x y) := and_ends_wordXYN _ _ _ _

theorem shr (x : Nibble) (y : Nibble) : Statement (.shr x y) := and_ends_wordXYN _ _ _ _

theorem subnReg (x : Nibble) (y : Nibble) : Statement (.subnReg x y) := and_ends_wordXYN _ _ _ _

theorem shl (x : Nibble) (y : Nibble) : Statement (.shl x y) := and_ends_wordXYN _ _ _ _

theorem sneReg (x : Nibble) (y : Nibble) : Statement (.sneReg x y) := and_ends_wordXYN _ _ _ _

theorem ldI (nnn : Addr12) : Statement (.ldI nnn) := and_top_wordNNN _ _

theorem jpV0 (nnn : Addr12) : Statement (.jpV0 nnn) := and_top_wordNNN _ _

theorem rnd (x : Nibble) (kk : Byte) : Statement (.rnd x kk) := and_top_wordXKK _ _ _

theorem drw (x : Nibble) (y : Nibble) (n : Nibble) : Statement (.drw x y n) := and_top_wordXYN _ _ _ _

theorem skp (x : Nibble) : Statement (.skp x) := and_key_wordXKK _ _ _

theorem sknp (x : Nibble) : Statement (.sknp x) := and_key_wordXKK _ _ _

theorem ldFromDt (x : Nibble) : Statement (.ldFromDt x) := and_key_wordXKK _ _ _

theorem ldKey (x : Nibble) : Statement (.ldKey x) := and_key_wordXKK _ _ _

theorem ldToDt (x : Nibble) : Statement (.ldToDt x) := and_key_wordXKK _ _ _

theorem ldToSt (x : Nibble) : Statement (.ldToSt x) := and_key_wordXKK _ _ _

theorem addI (x : Nibble) : Statement (.addI x) := and_key_wordXKK _ _ _

theorem ldGlyph (x : Nibble) : Statement (.ldGlyph x) := and_key_wordXKK _ _ _

theorem storeBcd (x : Nibble) : Statement (.storeBcd x) := and_key_wordXKK _ _ _

theorem storeRegs (x : Nibble) : Statement (.storeRegs x) := and_key_wordXKK _ _ _

theorem loadRegs (x : Nibble) : Statement (.loadRegs x) := and_key_wordXKK _ _ _

end Sys2Proof.Laws.EncodesItsRow
end

