-- ==== Sys2Proof/Tests/Slice0.lean ====
section
/-! SUPPORT. The model's own tests. Expected results are those of spec/95_test_vectors.md (the vector's id in the comment) or are
worked out by hand from the rule named; the witnesses show, for every obligation with hypotheses, a state and operands that meet
them all, at the boundary values of each clause. -/

namespace Sys2Proof.Tests

open Sys2Proof.Machine Sys2Proof.Safety

/-! ## Helpers -/

/-- The state a step leaves, for the fields a test looks at (the reset state where the step stops). -/
def left : Host.Outcome State Fault Refusal → State
  | .next t => t
  | .fault _ => State.reset
  | .refused _ => State.reset

/-- The state after one step that runs the opcode word `w` from `s`. -/
def ran (s : State) (w : Nat) : State := left (step (s.withFetchWord 16 w))

/-- The reset state with some registers loaded. -/
def regs (l : List (Nibble × Byte)) : State := l.foldl (fun s p => s.setV p.1 p.2) State.reset

/-- Four bytes of memory from `a` up. -/
def mem4 (s : State) (a : Nat) : List Byte := s.readBytes a 4

/-- The numbers of the set pixels among the framebuffer rows listed. -/
def setIn (s : State) (rows : List Nat) : List Nat :=
  rows.flatMap fun r => ((List.range 64).map fun c => 64 * r + c).filter s.pixel

/-! ## Well-formed terms -/

/-- R64, R71: the two words that are not 0NNN are ill-formed as `sys`; their neighbours are well-formed. -/
theorem test_wellFormed_refuses_sys_0E0 : (Instr.sys 0x0E0).wellFormed = false := by decide
theorem test_wellFormed_refuses_sys_0EE : (Instr.sys 0x0EE).wellFormed = false := by decide
theorem test_wellFormed_takes_sys_0E1 : (Instr.sys 0x0E1).wellFormed = true ∧ (Instr.sys 0x000).wellFormed = true := by decide

/-! ## Decoding: one word per constructor, written out from R65's table (vectors E1 to E21 where they have it) -/

theorem test_decode_cls : decode 0x00 0xE0 = .ok .cls := by decide
theorem test_decode_ret : decode 0x00 0xEE = .ok .ret := by decide
theorem test_decode_sys : decode 0x0F 0xFF = .ok (.sys 0xFFF) := by decide
theorem test_decode_jp : decode 0x1A 0xBC = .ok (.jp 0xABC) := by decide
theorem test_decode_call : decode 0x22 0x10 = .ok (.call 0x210) := by decide
theorem test_decode_seImm : decode 0x3A 0x7F = .ok (.seImm 0xA 0x7F) := by decide
theorem test_decode_sneImm : decode 0x43 0x2B = .ok (.sneImm 0x3 0x2B) := by decide
theorem test_decode_seReg : decode 0x5A 0xB0 = .ok (.seReg 0xA 0xB) := by decide
theorem test_decode_ldImm : decode 0x6A 0x3C = .ok (.ldImm 0xA 0x3C) := by decide
theorem test_decode_addImm : decode 0x70 0xFF = .ok (.addImm 0x0 0xFF) := by decide
theorem test_decode_ldReg : decode 0x81 0x20 = .ok (.ldReg 0x1 0x2) := by decide
theorem test_decode_orReg : decode 0x81 0x21 = .ok (.orReg 0x1 0x2) := by decide
theorem test_decode_andReg : decode 0x81 0x22 = .ok (.andReg 0x1 0x2) := by decide
theorem test_decode_xorReg : decode 0x81 0x23 = .ok (.xorReg 0x1 0x2) := by decide
theorem test_decode_addReg : decode 0x8A 0xB4 = .ok (.addReg 0xA 0xB) := by decide
theorem test_decode_subReg : decode 0x81 0x25 = .ok (.subReg 0x1 0x2) := by decide
theorem test_decode_shr : decode 0x8A 0xB6 = .ok (.shr 0xA 0xB) := by decide
theorem test_decode_subnReg : decode 0x81 0x27 = .ok (.subnReg 0x1 0x2) := by decide
theorem test_decode_shl : decode 0x84 0x9E = .ok (.shl 0x4 0x9) := by decide
theorem test_decode_sneReg : decode 0x9A 0xB0 = .ok (.sneReg 0xA 0xB) := by decide
theorem test_decode_ldI : decode 0xA2 0xF0 = .ok (.ldI 0x2F0) := by decide
theorem test_decode_jpV0 : decode 0xB2 0xFF = .ok (.jpV0 0x2FF) := by decide
theorem test_decode_rnd : decode 0xC3 0x0F = .ok (.rnd 0x3 0x0F) := by decide
theorem test_decode_drw : decode 0xD1 0x23 = .ok (.drw 0x1 0x2 0x3) := by decide
theorem test_decode_skp : decode 0xE1 0x9E = .ok (.skp 0x1) := by decide
theorem test_decode_sknp : decode 0xE1 0xA1 = .ok (.sknp 0x1) := by decide
theorem test_decode_ldFromDt : decode 0xF1 0x07 = .ok (.ldFromDt 0x1) := by decide
theorem test_decode_ldKey : decode 0xF1 0x0A = .ok (.ldKey 0x1) := by decide
theorem test_decode_ldToDt : decode 0xF1 0x15 = .ok (.ldToDt 0x1) := by decide
theorem test_decode_ldToSt : decode 0xF1 0x18 = .ok (.ldToSt 0x1) := by decide
theorem test_decode_addI : decode 0xF1 0x1E = .ok (.addI 0x1) := by decide
theorem test_decode_ldGlyph : decode 0xF1 0x29 = .ok (.ldGlyph 0x1) := by decide
theorem test_decode_storeBcd : decode 0xF1 0x33 = .ok (.storeBcd 0x1) := by decide
theorem test_decode_storeRegs : decode 0xF1 0x55 = .ok (.storeRegs 0x1) := by decide
theorem test_decode_loadRegs : decode 0xF1 0x65 = .ok (.loadRegs 0x1) := by decide

/-- E9, E14: the low nibble of 5XY0 and 9XY0 is checked (R72). -/
theorem test_decode_low_nibble_checked :
    decode 0x5A 0xB1 = .error (.unassigned 0x5AB1) ∧ decode 0x9A 0xBF = .error (.unassigned 0x9ABF) := by decide

/-- E12, E19, E21: unassigned second-level selectors (R72). -/
theorem test_decode_unassigned :
    decode 0x8A 0xB8 = .error (.unassigned 0x8AB8) ∧ decode 0x8A 0xBF = .error (.unassigned 0x8ABF) ∧
    decode 0xE1 0x9F = .error (.unassigned 0xE19F) ∧ decode 0xF1 0x30 = .error (.unassigned 0xF130) := by decide

/-- The table's numbering: a word of no bits is 0x0000, a 0NNN word. -/
theorem test_decodeTableWord : decodeTableWord 16 0xA2F0 = some (.ldI 0x2F0) ∧ decodeTableWord 0 0 = some (.sys 0x000) := by decide

/-! ## Flow control -/

/-- F1, R100. -/
theorem test_sys_is_fatal :
    let t := ran State.reset 0x0000
    t.halted = true ∧ t.faultKind = 1#2 ∧ t.faultOpcode = 0x0000#16 ∧ t.faultPc = 0x0200#16 ∧ t.pc = 0x0200#16 := by decide

/-- F2: the newest entry is popped and stays behind. -/
theorem test_ret_pops :
    let t := ran (((((State.reset.setEntry 0 0x0204).setEntry 1 0x0300).setSp 2).setPc 0x0400)) 0x00EE
    t.sp = 1 ∧ t.pc = 0x0302#16 ∧ t.stack[1] = 0x0300#16 := by decide

/-- F3: 00EE with an empty stack. -/
theorem test_ret_underflow :
    let t := ran State.reset 0x00EE
    t.status = some .fatal ∧ t.faultKind = 3#2 ∧ t.faultOpcode = 0x00EE#16 ∧ t.sp = 0 ∧ t.pc = 0x0200#16 := by decide

/-- F5: an odd target is taken. -/
theorem test_jp :
    (ran State.reset 0x1ABD).pc = 0x0ABD#16 := by decide

/-- F7: the sixteenth call succeeds and pushes its own address. -/
theorem test_call_pushes :
    let t := ran ((State.reset.setSp 15).setPc 0x0ABC) 0x2456
    t.stack[15] = 0x0ABC#16 ∧ t.sp = 16 ∧ t.pc = 0x0456#16 := by decide

/-- F8: the seventeenth is fatal. -/
theorem test_call_overflow :
    let t := ran ((State.reset.setSp 16).setPc 0x0ABC) 0x2456
    t.faultKind = 2#2 ∧ t.faultOpcode = 0x2456#16 ∧ t.faultPc = 0x0ABC#16 ∧ t.sp = 16 ∧ t.pc = 0x0ABC#16 := by decide

/-- F9: the sum passes 0xFFF and stays; no flag. -/
theorem test_jpV0 :
    let t := ran (regs [(0x0, 0xFF), (0xF, 0x07)]) 0xBFFF
    t.pc = 0x10FE#16 ∧ t.getV 0xF = 0x07#8 := by decide

/-- F10: bits 11:8 are part of NNN. -/
theorem test_jpV0_is_register_0 :
    (ran (regs [(0x0, 0x01), (0x2, 0x55)]) 0xB2FF).pc = 0x0300#16 := by decide

/-- F12: a fetch at 0xFFF takes its low byte from the font's first byte. -/
theorem test_fetch_wraps :
    let t := left (step ((State.reset.setPc 0x0FFF).memWrite 0xFFF 0x6B))
    t.getV 0xB = 0xF0#8 ∧ t.pc = 0x1001#16 := by decide

/-- F15: a halted core answers FATAL and changes nothing, DT included. -/
theorem test_halted_stays :
    let t := left (step ((ran (State.reset.setDt 3) 0x0000).setHost [.cycle (some 1) 9]))
    t.status = some .fatal ∧ t.dt = 3 ∧ t.faultOpcode = 0x0000#16 ∧ t.pc = 0x0200#16 := by decide

/-! ## Skips -/

/-- K1, K2: register F is tested like any other. -/
theorem test_seImm_sneImm :
    (ran (regs [(0xF, 0x01)]) 0x3F01).pc = 0x0204#16 ∧ (ran (regs [(0xF, 0x01)]) 0x4F01).pc = 0x0202#16 := by decide

/-- R111's example: a difference skips. -/
theorem test_sneImm_skips :
    (ran (regs [(0x3, 0x2A)]) 0x432B).pc = 0x0204#16 := by decide

/-- K10: the sum wraps at 16 bits. -/
theorem test_seImm_wraps :
    (ran ((regs [(0x1, 0x01)]).setPc 0xFFFE) 0x3101).pc = 0x0002#16 := by decide

/-- R112's example, both ways. -/
theorem test_seReg :
    (ran (regs [(0x1, 7), (0x2, 7)]) 0x5120).pc = 0x0204#16 ∧ (ran (regs [(0x1, 7), (0x2, 8)]) 0x5120).pc = 0x0202#16 := by decide

/-- R113's example, and K6: X = Y never skips. -/
theorem test_sneReg :
    (ran (regs [(0x1, 7), (0x2, 8)]) 0x9120).pc = 0x0204#16 ∧ (ran (regs [(0x4, 9)]) 0x9440).pc = 0x0202#16 := by decide

/-! ## Registers and arithmetic -/

/-- A1. -/
theorem test_ldImm :
    (ran State.reset 0x6FAB).getV 0xF = 0xAB#8 := by decide

/-- A2: the sum wraps and no flag is written. -/
theorem test_addImm :
    let t := ran (regs [(0x0, 0xFF)]) 0x7001
    t.getV 0x0 = 0x00#8 ∧ t.getV 0xF = 0x00#8 := by decide

/-- A3: X = F receives the sum. -/
theorem test_addImm_F :
    (ran (regs [(0xF, 0xFE)]) 0x7F03).getV 0xF = 0x01#8 := by decide

/-- A4. -/
theorem test_ldReg :
    (ran (regs [(0x2, 0x7E), (0xF, 0x09)]) 0x8F20).getV 0xF = 0x7E#8 := by decide

/-- A5: VF is not cleared. -/
theorem test_orReg :
    let t := ran (regs [(0x1, 0xAA), (0x2, 0x55), (0xF, 0x01)]) 0x8121
    t.getV 0x1 = 0xFF#8 ∧ t.getV 0xF = 0x01#8 := by decide

/-- R124's example. -/
theorem test_andReg :
    (ran (regs [(0x1, 0xF0), (0x2, 0x3C)]) 0x8122).getV 0x1 = 0x30#8 := by decide

/-- R125's example. -/
theorem test_xorReg :
    (ran (regs [(0x1, 0xF0), (0x2, 0x3C)]) 0x8123).getV 0x1 = 0xCC#8 := by decide

/-- S2: the carry. -/
theorem test_addReg :
    let t := ran (regs [(0x1, 0xFF), (0x2, 0x01)]) 0x8124
    t.getV 0x1 = 0x00#8 ∧ t.getV 0xF = 0x01#8 := by decide

/-- A13, A14: with X = F the sum overwrites the carry; with Y = F the operand is the old VF. -/
theorem test_addReg_F :
    (ran (regs [(0xF, 0xF0), (0x2, 0x20)]) 0x8F24).getV 0xF = 0x10#8 ∧
    (ran (regs [(0x1, 0x10), (0xF, 0xF5)]) 0x81F4).getV 0x1 = 0x05#8 := by decide

/-- S3: the borrow. -/
theorem test_subReg :
    let t := ran (regs [(0x1, 0x05), (0x2, 0x0A)]) 0x8125
    t.getV 0x1 = 0xFB#8 ∧ t.getV 0xF = 0x00#8 := by decide

/-- A18, A21: equality is no borrow; with Y = F the subtrahend is the old VF. -/
theorem test_subReg_equal_F :
    (ran (regs [(0x1, 0x33), (0x2, 0x33)]) 0x8125).getV 0xF = 0x01#8 ∧
    (ran (regs [(0x1, 0x10), (0xF, 0x03)]) 0x81F5).getV 0x1 = 0x0D#8 := by decide

/-- A23: the bit shifted out is the old bit 0; Y is ignored. -/
theorem test_shr :
    let t := ran (regs [(0x4, 0x05), (0x9, 0xEE)]) 0x8496
    t.getV 0x4 = 0x02#8 ∧ t.getV 0xF = 0x01#8 ∧ t.getV 0x9 = 0xEE#8 := by decide

/-- A27: with X = F the shifted value wins. -/
theorem test_shr_F :
    (ran (regs [(0xF, 0x07)]) 0x8F06).getV 0xF = 0x03#8 := by decide

/-- A30: the reverse difference and its borrow. -/
theorem test_subnReg :
    let t := ran (regs [(0x1, 0x0A), (0x2, 0x05)]) 0x8127
    t.getV 0x1 = 0xFB#8 ∧ t.getV 0xF = 0x00#8 := by decide

/-- A31, A32. -/
theorem test_subnReg_equal_F :
    (ran (regs [(0x1, 0x44), (0x2, 0x44)]) 0x8127).getV 0xF = 0x01#8 ∧
    (ran (regs [(0xF, 0x03), (0x2, 0x05)]) 0x8F27).getV 0xF = 0x02#8 := by decide

/-- A34: the bit shifted out is the old bit 7 and is not rotated in. -/
theorem test_shl :
    let t := ran (regs [(0x4, 0x81), (0x9, 0xEE)]) 0x849E
    t.getV 0x4 = 0x02#8 ∧ t.getV 0xF = 0x01#8 ∧ t.getV 0x9 = 0xEE#8 := by decide

/-- A38. -/
theorem test_shl_F :
    (ran (regs [(0xF, 0xC0)]) 0x8F0E).getV 0xF = 0x80#8 := by decide

/-- A40: the random byte under the mask. -/
theorem test_rnd :
    (ran ((regs [(0x3, 0xEE)]).present none 0xB7) 0xC30F).getV 0x3 = 0x07#8 := by decide

/-! ## Index and memory -/

/-- I2. -/
theorem test_ldI :
    (ran State.reset 0xAFFF).i = 0x0FFF#16 := by decide

/-- I3, I4: no 12-bit reduction; the 16-bit wrap writes no flag. -/
theorem test_addI :
    (ran ((regs [(0x1, 0x01)]).setI 0x0FFF) 0xF11E).i = 0x1000#16 ∧
    (let t := ran ((regs [(0x1, 0x02)]).setI 0xFFFF) 0xF11E
     t.i = 0x0001#16 ∧ t.getV 0xF = 0x00#8) := by decide

/-- I8, I10: the whole byte is multiplied. -/
theorem test_ldGlyph :
    (ran (regs [(0x2, 0x0A)]) 0xF229).i = 0x0032#16 ∧ (ran (regs [(0x2, 0xFF)]) 0xF229).i = 0x04FB#16 := by decide

/-- S4: 234 is 2, 3, 4; I stays. -/
theorem test_storeBcd :
    let t := ran ((regs [(0x6, 0xEA)]).setI 0x0300) 0xF633
    mem4 t 0x300 = [0x02, 0x03, 0x04, 0x00] ∧ t.i = 0x0300#16 := by decide

/-- I14: the three addresses wrap one by one, over the font's first byte. -/
theorem test_storeBcd_wraps :
    mem4 (ran ((regs [(0x6, 199)]).setI 0x0FFE) 0xF633) 0xFFE = [0x01, 0x09, 0x09, 0x90] := by decide

/-- R144's example. -/
theorem test_storeRegs :
    let t := ran ((regs [(0x0, 0x11), (0x1, 0x22), (0x2, 0x33)]).setI 0x0300) 0xF255
    mem4 t 0x300 = [0x11, 0x22, 0x33, 0x00] ∧ t.i = 0x0303#16 := by decide

/-- I20: I wraps at 16 bits, the addresses at 12. -/
theorem test_storeRegs_wraps :
    let t := ran ((regs [(0x0, 0x77), (0x1, 0x88)]).setI 0xFFFF) 0xF155
    mem4 t 0xFFF = [0x77, 0x88, 0x90, 0x90] ∧ t.i = 0x0001#16 := by decide

/-- I21: the font's first glyph; V[5] stays. -/
theorem test_loadRegs :
    let t := ran (regs [(0x4, 0xEE), (0x5, 0xEE)]) 0xF465
    t.getV 0x0 = 0xF0#8 ∧ t.getV 0x1 = 0x90#8 ∧ t.getV 0x4 = 0xF0#8 ∧ t.getV 0x5 = 0xEE#8 ∧ t.i = 0x0005#16 := by decide

/-- I23: the block wraps to the font. -/
theorem test_loadRegs_wraps :
    let t := ran ((State.reset.memWrite 0xFFF 0x42).setI 0x0FFF) 0xF165
    t.getV 0x0 = 0x42#8 ∧ t.getV 0x1 = 0xF0#8 ∧ t.i = 0x1001#16 := by decide

/-! ## Display -/

/-- S8: the pixels are cleared and a draw is requested. -/
theorem test_cls :
    let t := ran ((State.reset.flipPixel 5).flipPixel 2047) 0x00E0
    t.pixel 5 = false ∧ t.pixel 2047 = false ∧ t.drawReq = true ∧ t.pc = 0x0202#16 := by decide

/-- S5, second draw: the eight pixels go out and collide. -/
theorem test_drw_collides :
    let s := (State.reset.setI 0x0300).memWrite 0x300 0xFF
    let t := ran ((ran s 0xD011).setPc 0x0200) 0xD011
    setIn t [0, 1] = [] ∧ t.getV 0xF = 0x01#8 ∧ t.drawReq = true := by decide

/-- S6, G3: the flat index goes on in the next row, and from the last pixel at the first. -/
theorem test_drw_wraps :
    let s := (State.reset.setI 0x0300).memWrite 0x300 0xFF
    setIn (ran (s.setV 0x0 63) 0xD011) [0, 1] = [63, 64, 65, 66, 67, 68, 69, 70] ∧
    setIn (ran ((s.setV 0x0 63).setV 0x1 31) 0xD011) [31, 0] = [2047, 0, 1, 2, 3, 4, 5, 6] := by decide

/-! ## Keypad and timers -/

/-- Y1, Y3: the low nibble names the key. -/
theorem test_skp :
    (ran ((regs [(0x2, 0x1A)]).applyKeys ((Vector.replicate 16 false).set 0xA true)) 0xE29E).pc = 0x0204#16 ∧
    (ran ((regs [(0x2, 0x1A)]).applyKeys ((Vector.replicate 16 false).set 0x1 true)) 0xE29E).pc = 0x0202#16 := by decide

/-- Y2, Y4. -/
theorem test_sknp :
    (ran ((regs [(0x2, 0x1A)]).applyKeys ((Vector.replicate 16 false).set 0xA true)) 0xE2A1).pc = 0x0202#16 ∧
    (ran ((regs [(0x2, 0x1A)]).applyKeys ((Vector.replicate 16 false).set 0x1 true)) 0xE2A1).pc = 0x0204#16 := by decide

/-- Y8, cycle 1: no press, so nothing changes and nothing ticks, whatever KEY holds. -/
theorem test_ldKey_waits :
    let t := ran (((((regs [(0x3, 0xEE)]).setDt 9).setSt 1)).applyKeys ((Vector.replicate 16 false).set 3 true)) 0xF30A
    t.status = some .needsKey ∧ t.pc = 0x0200#16 ∧ t.getV 0x3 = 0xEE#8 ∧ t.dt = 9 ∧ t.st = 1 ∧ t.beep = some false := by decide

/-- Y8, cycle 3: the press is stored, the cycle completes and ticks. -/
theorem test_ldKey_stores :
    let t := ran ((((regs [(0x3, 0xEE)]).setDt 9).setSt 1).present (some 0xB) 0) 0xF30A
    t.status = some .done ∧ t.pc = 0x0202#16 ∧ t.getV 0x3 = 0x0B#8 ∧ t.dt = 8 ∧ t.st = 0 ∧ t.beep = some true := by decide

/-- T2: the value before the tick is read. -/
theorem test_ldFromDt :
    let t := ran (State.reset.setDt 0xFF) 0xF107
    t.getV 0x1 = 0xFF#8 ∧ t.dt = 0xFE#8 := by decide

/-- T5, T4: the tick of the loading cycle follows the load. -/
theorem test_ldToDt :
    (ran (regs [(0x0, 0xFF)]) 0xF015).dt = 0xFE#8 ∧ (ran (State.reset.setDt 7) 0xF015).dt = 0x00#8 := by decide

/-- T6, T7: loading 1 beeps in the same cycle; loading 0 cancels the beep. -/
theorem test_ldToSt :
    (let t := ran (regs [(0x0, 0x01)]) 0xF018
     t.st = 0x00#8 ∧ t.beep = some true) ∧
    (let t := ran (State.reset.setSt 1) 0xF018
     t.st = 0x00#8 ∧ t.beep = some false) := by decide

/-- T9: no tick and no beep in a faulting cycle. -/
theorem test_no_tick_on_fatal :
    let t := ran ((State.reset.setSt 1).setDt 5) 0x0000
    t.st = 1 ∧ t.dt = 5 ∧ t.beep = some false := by decide

/-! ## The host's moves -/

/-- R32, R213: an image lands verbatim from 0x200 up. -/
theorem test_load :
    mem4 (left (step (State.reset.setHost [.load [0x60, 0x05, 0x61]]))) 0x200 = [0x60, 0x05, 0x61, 0x00] := by decide

/-- R31: reset clears HALTED and the record. -/
theorem test_reset_move :
    let t := left (step ((ran (regs [(0x1, 0x22)]) 0x0000).setHost [.reset]))
    t.halted = false ∧ t.faultKind = 0#2 ∧ t.getV 0x1 = 0x00#8 ∧ t.pc = 0x0200#16 ∧ t.status = none := by decide

/-- R35. -/
theorem test_consumeFrame :
    (left (step (State.reset.requestDraw.setHost [.consumeFrame]))).drawReq = false := by decide

/-- R33. -/
theorem test_writeKeys :
    (left (step (State.reset.setHost [.writeKeys (Vector.replicate 16 true)]))).key[15] = true := by decide
/-! ## The parameter FONT -/

/-- A `FONT` that is not the default. -/
def otherFont : Config.Font := Vector.replicate 80 0x7E

/-- R24's default table: 80 bytes, glyph A at 0x032, glyph F's last byte at 0x04F, 0x00 above. -/
theorem test_default_font :
    mem4 State.reset 0x032 = [0xF0, 0x90, 0xF0, 0x90] ∧ mem4 State.reset 0x04E = [0x80, 0x80, 0x00, 0x00] := by decide

/-- R4, R28: reset with another `FONT` has its bytes at 0x000 to 0x04F, and a reset move brings them back after a store (I14). -/
theorem test_other_font :
    mem4 (State.resetWith otherFont) 0x04E = [0x7E, 0x7E, 0x00, 0x00] ∧
    (let t := ran (((State.resetWith otherFont).setV 0x6 199).setI 0x0FFE) 0xF633
     t.memRead 0x000 = 0x09#8 ∧ (left (step (t.setHost [.reset]))).memRead 0x000 = 0x7E#8) := by decide

/-! ## Witnesses: the hypotheses of each obligation met together -/

/-- The reset state with a schedule of host moves. -/
def hosted (l : List HostMove) : State := State.reset.setHost l

/-- A host that invokes a cycle, and one that lists nothing: both ways in which a cycle begins. -/
theorem test_witness_aboutToCycle :
    AboutToCycle State.reset State.reset ∧
    AboutToCycle (hosted [.cycle (some 0x3) 0x7F, .reset]) ((hosted [.reset]).present (some 0x3) 0x7F) :=
  ⟨.inl ⟨rfl, rfl⟩, .inr ⟨some 0x3, 0x7F, [.reset], rfl, rfl⟩⟩

theorem test_witness_ResetMoveRestoresTheResetState : (hosted [.reset, .cycle none 0]).host = .reset :: [.cycle none 0] := rfl

/-- Well-formed instructions at both ends of their operands' ranges. -/
theorem test_witness_DecodeOfEncodeIsTheInstruction :
    (Instr.sys 0xFFF).wellFormed = true ∧ (Instr.sys 0x0E1).wellFormed = true ∧ (Instr.drw 0xF 0xF 0xF).wellFormed = true ∧
    (Instr.ldImm 0x0 0x00).wellFormed = true := by decide

theorem test_witness_EncodeOfDecodeIsTheBytes : decode 0xFF 0x65 = .ok (.loadRegs 0xF) := by decide

/-- An unassigned word and an assigned one, each as the fields of a word. -/
theorem test_witness_UnassignedWordsAreExactlyTheListed :
    (0x5AB1#16 = wordXYN 0x5 0xA 0xB 0x1 ∧ decodeWord 0x5AB1 = .error (.unassigned 0x5AB1)) ∧
    (0x5AB0#16 = wordXYN 0x5 0xA 0xB 0x0 ∧ decodeWord 0x5AB0 = .ok (.seReg 0xA 0xB)) := by decide

/-- A canonical memory; the same address modulo 4096, and its neighbour. -/
theorem test_witness_ReadAfterWrite :
    Memory.wf (State.reset.memWrite 0x1000 0x42).font (State.reset.memWrite 0x1000 0x42).mem = true ∧
    (State.reset.memWrite 0x1000 0x42).memRead 0x000 = 0x42#8 ∧
    (State.reset.memWrite 0x1000 0x42).memRead 0x001 = 0x90#8 := by decide

/-- At the top of memory the stored instruction wraps to address 0. -/
theorem test_witness_StoredInstructionIsFetched :
    Memory.wf (State.reset.setPc 0x0FFF).font (State.reset.setPc 0x0FFF).mem = true ∧ (Instr.ldImm 0x1 0x02).wellFormed = true ∧
    ((State.reset.setPc 0x0FFF).withFetchWord 16 0x6102).fetchDecode = .ok (.ldImm 0x1 0x02) := by decide

/-- From reset the first cycle fetches 0x0000, a 0NNN word. -/
theorem test_witness_StepRunsTheDecodedInstruction :
    AboutToCycle State.reset State.reset ∧ Running State.reset ∧
    decode (State.reset.memRead State.reset.pc.toNat) (State.reset.memRead (State.reset.pc.toNat + 1)) = .ok (.sys 0x000) :=
  ⟨.inl ⟨rfl, rfl⟩, rfl, by decide⟩

/-- A completed cycle with the timers at 1 and 0, and one that did not complete. -/
theorem test_witness_TickOnlyAtTheEndOfACompletedCycle :
    ((State.reset.setSt 1).setStatus .done).status = some .done ∧
    ((State.reset.setSt 1).setStatus .done).endCycle.beep = some true ∧
    (State.reset.setStatus .done).endCycle.beep = some false ∧
    (State.reset.setStatus .needsKey).status ≠ some .done := by decide

/-- A running core and a halted one before a cycle. -/
theorem test_witness_EveryCycleEndsInOneOfThreeWays :
    AboutToCycle State.reset State.reset ∧ Running State.reset ∧
    AboutToCycle (ran State.reset 0x0000) (ran State.reset 0x0000) ∧ Faulted (ran State.reset 0x0000) :=
  ⟨.inl ⟨rfl, rfl⟩, rfl, .inl ⟨rfl, rfl⟩, rfl⟩

/-- Each of the three fatal errors, and a cycle that raises none. -/
theorem test_witness_FatalErrorsExactlyWhereTheRulesSay :
    AboutToCycle State.reset State.reset ∧ Running State.reset ∧
    (ran State.reset 0x5121).faultKind = 1#2 ∧ (ran State.reset 0x0FFF).faultKind = 1#2 ∧
    (ran (State.reset.setSp 16) 0x2200).faultKind = 2#2 ∧ (ran (State.reset.setSp 15) 0x2200).halted = false ∧
    (ran State.reset 0x00EE).faultKind = 3#2 ∧ (ran (State.reset.setSp 1) 0x00EE).halted = false := by
  exact ⟨.inl ⟨rfl, rfl⟩, rfl, by decide⟩

/-- A halted core with a cycle, and with a reset, in front. -/
theorem test_witness_OnlyResetEndsTheHalt :
    (Faulted (ran State.reset 0x0000) ∧ ∃ t, step (ran State.reset 0x0000) = .next t) ∧
    (Faulted ((ran State.reset 0x0000).setHost [.reset]) ∧ ∃ t, step ((ran State.reset 0x0000).setHost [.reset]) = .next t) :=
  ⟨⟨rfl, _, rfl⟩, ⟨rfl, _, rfl⟩⟩

theorem test_witness_WaitingForAKeyChangesNothing :
    AboutToCycle (State.reset.withFetchWord 16 0xF30A) (State.reset.withFetchWord 16 0xF30A) ∧
    Waiting (State.reset.withFetchWord 16 0xF30A) :=
  ⟨.inl ⟨rfl, rfl⟩, rfl, rfl, 0x3, by decide⟩

/-- A jump to itself at the first and at the last even address. -/
theorem test_witness_SpinningGoesOnForever :
    AboutToCycle (State.reset.withFetchWord 16 0x1200) (State.reset.withFetchWord 16 0x1200) ∧
    Spinning (State.reset.withFetchWord 16 0x1200) ∧ Spinning ((State.reset.setPc 0x0FFE).withFetchWord 16 0x1FFE) :=
  ⟨.inl ⟨rfl, rfl⟩, ⟨rfl, by decide, by decide⟩, ⟨rfl, by decide, by decide⟩⟩

/-- Stack depths 1 and 16 return, depth 0 does not. -/
theorem test_witness_RetReturnsOrUnderflows :
    (State.reset.setSp 1).sp.val = (0 : Fin 16).val + 1 ∧ (State.reset.setSp 16).sp.val = (15 : Fin 16).val + 1 ∧
    State.reset.sp.val = 0 := by decide

/-- Stack depths 0 and 15 call, depth 16 does not. -/
theorem test_witness_CallPushesOrOverflows :
    State.reset.sp.val = (0 : Fin 16).val ∧ (State.reset.setSp 15).sp.val = (15 : Fin 16).val ∧
    (State.reset.setSp 16).sp.val = 16 := by decide

theorem test_witness_CallThenReturnResumesAfterTheCall : State.reset.sp.val < 16 ∧ (State.reset.setSp 15).sp.val < 16 := by decide

/-- A completed instruction that neither jumps nor skips, a skip that is taken, and an execution that does not complete. -/
theorem test_witness_PcAdvancesByTwoOrFourUnlessJumping :
    (∃ t, exec (.ldImm 0x1 0x02) State.reset = .next t ∧ t.status = some .done ∧ isJump (.ldImm 0x1 0x02) = false) ∧
    (∃ t, exec (.seImm 0x1 0x00) State.reset = .next t ∧ t.status = some .done ∧ t.pc = State.reset.pc + 4) ∧
    (∃ t, exec (.ldKey 0x1) State.reset = .next t ∧ t.status ≠ some .done) :=
  ⟨⟨_, rfl, by decide⟩, ⟨_, rfl, by decide⟩, ⟨_, rfl, by decide⟩⟩

/-- Keys 0 and 15 named by registers whose high nibble is not 0. -/
theorem test_witness_KeySkipsTestTheNamedKey :
    ((regs [(0x2, 0xF0)]).getV 0x2).toNat % 16 = (0 : Fin 16).val ∧
    ((regs [(0x2, 0x1F)]).getV 0x2).toNat % 16 = (15 : Fin 16).val := by decide

/-- X = 0xF apart, where the flag is the result, the flag clauses hold at X = 0 and X = 0xE. -/
theorem test_witness_flag_clauses : (0x0 : Nibble) ≠ vf ∧ (0xE : Nibble) ≠ vf := by decide

/-- A register no 8XY4 with X = 1 writes, one no FX65 with X = 1 writes. -/
theorem test_witness_OnlyTheNamedRegistersChange :
    (∃ t, exec (.addReg 0x1 0x2) State.reset = .next t) ∧ ¬writesReg (.addReg 0x1 0x2) 0x2 ∧
    (∃ t, exec (.loadRegs 0x1) State.reset = .next t) ∧ ¬writesReg (.loadRegs 0x1) 0x2 :=
  ⟨⟨_, rfl⟩, by simp [writesReg, vf], ⟨_, rfl⟩, by simp [writesReg]⟩

theorem test_witness_BcdStoresTheThreeDigits : Memory.wf State.reset.font State.reset.mem = true := rfl

/-- The smallest and the largest block. -/
theorem test_witness_BlockStoreCopiesTheRegisters :
    Memory.wf State.reset.font State.reset.mem = true ∧ (0x0 : Nibble).toNat ≤ (0x0 : Nibble).toNat ∧
    (0xF : Nibble).toNat ≤ (0xF : Nibble).toNat := by
  decide

/-- All sixteen registers lie in the list a frame of FX65 with X = F may name. -/
theorem test_witness_BlockLoadCopiesTheMemory :
    ∀ r : Nibble, r.toNat ≤ (0x1 : Nibble).toNat → r ∈ [0x0#4, 0x1#4] := by decide

theorem test_witness_BlockStoreThenLoadRestoresTheRegisters :
    Memory.wf (State.reset.memWrite 0x300 0x01).font (State.reset.memWrite 0x300 0x01).mem = true := by decide

theorem test_witness_OnlyStoresChangeMemory :
    isStore (.loadRegs 0xF) = false ∧ ∃ t, exec (.loadRegs 0xF) State.reset = .next t := ⟨rfl, _, rfl⟩

/-- The font's first byte drawn at the origin: a pixel it hits, clear and set before, and one it does not hit. -/
theorem test_witness_DrawTurnsExactlyTheSpritePixels :
    Hits 0x0 0x0 0x1 State.reset 0 ∧ State.reset.pixel 0 = false ∧ (State.reset.flipPixel 0).pixel 0 = true ∧
    ¬Hits 0x0 0x0 0x0 State.reset 0 :=
  ⟨⟨0, 0, by decide, by decide, by decide, by decide⟩, by decide, by decide, fun ⟨_, _, h, _⟩ => by simp at h⟩

theorem test_witness_FlatIndexGeometry :
    (0 : Nat) < 8 ∧ (7 : Nat) < 8 ∧ (14 : Nat) < 15 ∧ pixelIndex 0xFF 0xFF 14 7 = 64 * ((255 + 14 + 4) % 32) + 6 := by decide

theorem test_witness_DrawingTwiceRestoresTheScreen : (0x0 : Nibble) ≠ vf ∧ (0xE : Nibble) ≠ vf := by decide

theorem test_witness_KeyWaitHoldsOrStoresTheCode :
    State.reset.keyPress = none ∧ (State.reset.present (some 0x0) 0).keyPress = some 0x0 ∧
    (State.reset.present (some 0xF) 0).keyPress = some 0xF := by decide

/-- An execution with a draw request pending, of an instruction that is neither 00E0 nor DXYN. -/
theorem test_witness_NoInstructionWritesKeysOrClearsDrawRequest :
    (∃ t, exec (.jp 0x200) State.reset.requestDraw = .next t) ∧ State.reset.requestDraw.drawReq = true ∧
    Instr.jp 0x200 ≠ .cls ∧ ∀ x y n : Nibble, Instr.jp 0x200 ≠ .drw x y n :=
  ⟨⟨_, rfl⟩, rfl, by decide, fun _ _ _ => by simp⟩

theorem test_witness_KeyPressReachesOnlyFx0a :
    (∀ x : Nibble, Instr.skp 0x1 ≠ .ldKey x) ∧ ∃ t, exec (.skp 0x1) State.reset = .next t := ⟨fun _ => by simp, _, rfl⟩

theorem test_witness_RandomByteReachesOnlyCxkk :
    (∀ (x : Nibble) (kk : Byte), Instr.ldKey 0x1 ≠ .rnd x kk) ∧ ∃ t, exec (.ldKey 0x1) State.reset = .next t :=
  ⟨fun _ _ => by simp, _, rfl⟩

/-- The empty image and the longest one. -/
theorem test_witness_LoadCopiesTheImage :
    (hosted [.load []]).host = .load [] :: [] ∧ Memory.wf (hosted [.load []]).font (hosted [.load []]).mem = true ∧
    (hosted [.load []]).status = none ∧
    ([] : List Byte).length ≤ 3584 ∧ (List.replicate 3584 (0x61 : Byte)).length ≤ 3584 :=
  ⟨rfl, rfl, rfl, Nat.zero_le _, List.length_replicate.le⟩

/-- A load after a cycle, and a load one byte too long before the first. -/
theorem test_witness_LoadsOutsideTheContractStop :
    ((State.reset.setStatus .done).setHost [.load []]).host = .load [] :: [] ∧
    ((State.reset.setStatus .done).setHost [.load []]).status ≠ none ∧ (hosted [.load []]).status = none ∧
    3584 < (List.replicate 3585 (0x61 : Byte)).length :=
  ⟨rfl, by decide, rfl, by rw [List.length_replicate]; decide⟩

theorem test_witness_KeyAndFrameMovesChangeOnlyTheirs :
    (hosted [.writeKeys (Vector.replicate 16 true)]).host = .writeKeys (Vector.replicate 16 true) :: [] ∧
    (hosted [.consumeFrame, .reset]).host = .consumeFrame :: [.reset] := ⟨rfl, rfl⟩

/-- The empty image and the longest one. -/
theorem test_witness_LaunchIsResetWithTheImage :
    ([] : List Byte).length ≤ 3584 ∧ (List.replicate 3584 (0x61 : Byte)).length ≤ 3584 :=
  ⟨Nat.zero_le _, List.length_replicate.le⟩

theorem test_witness_LaunchFetchesTheFirstTwoBytes :
    ([] : List Byte).length ≤ 3582 ∧ (List.replicate 3582 (0x61 : Byte)).length ≤ 3582 :=
  ⟨Nat.zero_le _, List.length_replicate.le⟩

theorem test_witness_NoStepChangesTheFontParameter : ∃ t, step (State.resetWith otherFont) = .next t := ⟨_, rfl⟩

theorem test_witness_StepKeepsMemoryCanonical : Memory.wf State.reset.font State.reset.mem = true ∧ ∃ t, step State.reset = .next t :=
  ⟨rfl, _, rfl⟩

/-- The invariant holds at the state with a program loaded, whose step is a next state. -/
theorem test_witness_StepKeepsTheInvariant :
    Inv (State.reset.memWrite 0x200 0x61) ∧ ∃ t, step (State.reset.memWrite 0x200 0x61) = .next t :=
  ⟨⟨by decide, ⟨fun _ => ⟨rfl, rfl, rfl⟩, fun h => by cases h⟩, by unfold OutputsAgree; decide⟩, _, rfl⟩

end Sys2Proof.Tests
end

section
/-! O57: no step changes the parameter `FONT` (spec/00_scope.md R4). A cycle is taken apart once, by `cycle_cases`, as `step_cases`
does for a step; the claim then follows the cases of the two. -/

namespace Sys2Proof.Machine

open Sys2Proof.Safety

/-- Everything a cycle can do: nothing while halted, the execution of a fetched instruction, or the fatal error of an unassigned
word; each followed by the end of the cycle (R25, R72, R76). -/
theorem cycle_cases {u t : State} (h : u.cycle = .next t) :
    (u.halted = true ∧ t = u.haltedCycle.endCycle) ∨
    (∃ i r, u.halted = false ∧ u.fetchDecode = .ok i ∧ exec i u = .next r ∧ t = r.endCycle) ∨
    ∃ w, u.halted = false ∧ u.fetchDecode = .error (.unassigned w) ∧
      t = (u.raiseFatal .unsupportedOpcode w).endCycle := by
  cases hh : u.halted with
  | true =>
    rw [cycle_halted hh] at h
    exact .inl ⟨rfl, (Host.Outcome.next.inj h).symm⟩
  | false =>
    match hf : u.fetchDecode with
    | .ok i =>
      rw [cycle_ok hh hf] at h
      cases he : exec i u with
      | next r =>
        rw [he] at h
        exact .inr (.inl ⟨i, r, rfl, rfl, he, (Host.Outcome.next.inj h).symm⟩)
      | fault _ | refused _ =>
        rw [he] at h
        cases h
    | .error (.unassigned w) =>
      rw [cycle_error hh hf] at h
      exact .inr (.inr ⟨w, rfl, rfl, (Host.Outcome.next.inj h).symm⟩)

/-- Neither the tick nor the inputs of the next cycle touch `FONT`. -/
@[simp] theorem endCycle_font (s : State) : s.endCycle.font = s.font := by
  by_cases h : s.status = some .done
  · rw [endCycle_done h, freshInputs_font, tick_font]
  · rw [endCycle_not_done h, freshInputs_font, silent_font]

@[simp] theorem haltedCycle_font (s : State) : s.haltedCycle.font = s.font := rfl

/-- The state a cycle runs in has the `FONT` of the state before the step. -/
theorem font_of_aboutToCycle {s u : State} (h : AboutToCycle s u) : u.font = s.font := by
  obtain ⟨_, rfl⟩ | ⟨_, _, _, _, rfl⟩ := h
  · rfl
  · rw [present_font, setHost_font]

/-- Whichever way an execution ends, `FONT` stays. -/
theorem exec_font {i : Instr} {s t : State} (h : exec i s = .next t) : t.font = s.font := by
  obtain ⟨_, _, _, _, _, hfont, _, _⟩ | ⟨_, _, rfl⟩ | ⟨k, _, rfl⟩ := exec_cases h
  · exact hfont
  · exact setStatus_font s .needsKey
  · exact raiseFatal_font s k (encodeWord i)

theorem cycle_font {u t : State} (h : u.cycle = .next t) : t.font = u.font := by
  obtain ⟨_, rfl⟩ | ⟨_, r, _, _, hexec, rfl⟩ | ⟨w, _, _, rfl⟩ := cycle_cases h
  · rw [endCycle_font, haltedCycle_font]
  · rw [endCycle_font, exec_font hexec]
  · rw [endCycle_font, raiseFatal_font]

/-- Settles O57: over the cases of a step, a cycle by `cycle_font` and each move between cycles by its field lemma. -/
theorem noStepChangesTheFontParameter : Obligations.NoStepChangesTheFontParameter := by
  intro s t h
  obtain ⟨u, hu, hcycle⟩ | ⟨keys, rest, _, rfl⟩ | ⟨rest, _, rfl⟩ | ⟨rest, _, rfl⟩ | ⟨rom, rest, _, _, _, rfl⟩ := step_cases h
  · rw [cycle_font hcycle, font_of_aboutToCycle hu]
  · rw [applyKeys_font, setHost_font]
  · rw [applyConsumeFrame_font, setHost_font]
  · rw [applyReset_font, setHost_font]
  · rw [writeBytes_font, setHost_font]

end Sys2Proof.Machine
end

section
/-! The word an instruction was decoded from, which the fault record holds (spec/30_encoding.md R65). -/

namespace Sys2Proof

theorem encodeWord_decodeZero (nnn : Addr12) : encodeWord (decodeZero nnn) = wordNNN 0x0 nnn := by
  unfold decodeZero
  split_ifs with h0 h1
  · rw [h0]; rfl
  · rw [h1]; rfl
  · rfl

theorem encodeWord_decodeAlu {x y n : Nibble} {i : Instr} (h : decodeAlu x y n = some i) :
    encodeWord i = wordXYN 0x8 x y n := by
  unfold decodeAlu at h
  split_ifs at h <;> cases h <;> exact congrArg (wordXYN 0x8 x y) (Eq.symm ‹n = _›)

theorem encodeWord_decodeKey {x : Nibble} {kk : Byte} {i : Instr} (h : decodeKey x kk = some i) :
    encodeWord i = wordXKK 0xE x kk := by
  unfold decodeKey at h
  split_ifs at h <;> cases h <;> exact congrArg (wordXKK 0xE x) (Eq.symm ‹kk = _›)

theorem encodeWord_decodeMisc {x : Nibble} {kk : Byte} {i : Instr} (h : decodeMisc x kk = some i) :
    encodeWord i = wordXKK 0xF x kk := by
  unfold decodeMisc at h
  split_ifs at h <;> cases h <;> exact congrArg (wordXKK 0xF x) (Eq.symm ‹kk = _›)

/-- Of the two families with only `N` = 0 assigned, an instruction read has that `N` in its word (R72). -/
theorem encodeWord_decodeIfZero {op x y n : Nibble} {i j : Instr} (h : decodeIfZero n i = some j)
    (hi : encodeWord i = wordXYN op x y 0x0) : encodeWord j = wordXYN op x y n := by
  unfold decodeIfZero at h
  split_ifs at h with hn
  cases h
  rw [hn]
  exact hi

/-- The encoder gives back the word an instruction was read from: the two-level dispatch drops no bit. -/
theorem encodeWord_of_decodeFields {w : Word} {i : Instr} (h : decodeFields w = some i) : encodeWord i = w := by
  have hNNN := wordNNN_fields w
  have hXKK := wordXKK_fields w
  have hXYN := wordXYN_fields w
  unfold decodeFields at h
  generalize fieldOp w = op at *
  obtain ⟨op, hop⟩ := op
  interval_cases op
  -- the sixteen values of `OP`, from 0x0 up
  · cases h; exact (encodeWord_decodeZero _).trans hNNN
  · cases h; exact hNNN
  · cases h; exact hNNN
  · cases h; exact hXKK
  · cases h; exact hXKK
  · exact (encodeWord_decodeIfZero (op := 0x5) h rfl).trans hXYN
  · cases h; exact hXKK
  · cases h; exact hXKK
  · exact (encodeWord_decodeAlu h).trans hXYN
  · exact (encodeWord_decodeIfZero (op := 0x9) h rfl).trans hXYN
  · cases h; exact hNNN
  · cases h; exact hNNN
  · cases h; exact hXKK
  · cases h; exact hXYN
  · exact (encodeWord_decodeKey h).trans hXKK
  · exact (encodeWord_decodeMisc h).trans hXKK

theorem encodeWord_of_decodeWord {w : Word} {i : Instr} (h : decodeWord w = .ok i) : encodeWord i = w := by
  obtain ⟨j, hfields, hj⟩ | ⟨_, hnone⟩ := decodeWord_cases w
  · cases hj.symm.trans h
    exact encodeWord_of_decodeFields hfields
  · cases hnone.symm.trans h

/-- Only the word itself is named by its rejection (R72). -/
theorem eq_of_decodeWord_unassigned {w w' : Word} (h : decodeWord w = .error (.unassigned w')) : w' = w := by
  obtain ⟨j, _, hj⟩ | ⟨_, hnone⟩ := decodeWord_cases w
  · cases hj.symm.trans h
  · cases hnone.symm.trans h
    rfl

end Sys2Proof
end

section
/-! O59: every step keeps the invariant (spec/10_state.md R25, R26, R36, R38; spec/60_exceptions.md R184). First what an execution
and the end of a cycle leave alone; then the three parts of the invariant, each over the cases of a cycle and of a step. -/

namespace Sys2Proof.Machine

open Sys2Proof.Safety

/-! ## The instructions with more than one outcome, taken apart -/

theorem exec_ret_cases {s t : State} (h : exec .ret s = .next t) :
    (∃ n w, t = ((s.setSp n).setPc w).setStatus .done) ∨ t = s.raiseFatal .stackUnderflow (encodeWord .ret) := by
  by_cases hs : s.sp.val = 0
  · exact .inr (Host.Outcome.next.inj (h.symm.trans (exec_ret_empty hs)))
  · exact .inl ⟨_, _, Host.Outcome.next.inj (h.symm.trans (exec_ret_pos (by omega)))⟩

theorem exec_call_cases {nnn : Addr12} {s t : State} (h : exec (.call nnn) s = .next t) :
    (∃ k n, t = (((s.setEntry k s.pc).setSp n).setPc (addrOperand nnn)).setStatus .done) ∨
      t = s.raiseFatal .stackOverflow (encodeWord (.call nnn)) := by
  by_cases hs : s.sp.val = 16
  · exact .inr (Host.Outcome.next.inj (h.symm.trans (exec_call_full nnn hs)))
  · exact .inl ⟨_, _, Host.Outcome.next.inj (h.symm.trans (exec_call_lt nnn (by omega)))⟩

theorem exec_ldKey_cases {x : Nibble} {s t : State} (h : exec (.ldKey x) s = .next t) :
    t = s.setStatus .needsKey ∨ ∃ c : Nibble, t = (s.setV x (c.zeroExtend 8)).advance.setStatus .done := by
  cases hk : s.keyPress with
  | none => exact .inl (Host.Outcome.next.inj (h.symm.trans (exec_ldKey_none x hk)))
  | some c => exact .inr ⟨c, Host.Outcome.next.inj (h.symm.trans (exec_ldKey_some x hk))⟩

/-! ## Memory -/

/-- No instruction but FX33 and FX55 touches the list that holds memory (R47). -/
theorem exec_mem {i : Instr} {s t : State} (hi : isStore i = false) (h : exec i s = .next t) : t.mem = s.mem := by
  cases i
  case ret => obtain ⟨_, _, rfl⟩ | rfl := exec_ret_cases h <;> rfl
  case call nnn => obtain ⟨_, _, rfl⟩ | rfl := exec_call_cases h <;> rfl
  case ldKey x => obtain rfl | ⟨_, rfl⟩ := exec_ldKey_cases h <;> rfl
  case storeBcd | storeRegs => cases hi
  all_goals cases h; simp

/-- Every execution keeps memory canonical: the two stores go through `State.writeBytes`. -/
theorem exec_mem_wf {i : Instr} {s t : State} (hs : Memory.wf s.font s.mem = true) (h : exec i s = .next t) :
    Memory.wf t.font t.mem = true := by
  cases hi : isStore i with
  | false => rwa [exec_font h, exec_mem hi h]
  | true =>
    cases i
    case storeBcd x => cases h; exact State.wf_writeBytes hs _ _
    case storeRegs x => cases h; exact State.wf_writeBytes hs _ _
    all_goals cases hi

/-! ## The end of a cycle -/

/-- A read that neither the tick nor silence changes, and fresh inputs do not either, is unchanged by the end of a cycle. -/
theorem endCycle_read {α : Type} (f : State → α) (s : State) (htick : f s.tick.freshInputs = f s)
    (hsilent : f s.silent.freshInputs = f s) : f s.endCycle = f s := by
  by_cases h : s.status = some .done
  · rw [endCycle_done h, htick]
  · rw [endCycle_not_done h, hsilent]

@[simp] theorem endCycle_mem (s : State) : s.endCycle.mem = s.mem := endCycle_read State.mem s rfl rfl
@[simp] theorem endCycle_pc (s : State) : s.endCycle.pc = s.pc := endCycle_read State.pc s rfl rfl
@[simp] theorem endCycle_sp (s : State) : s.endCycle.sp = s.sp := endCycle_read State.sp s rfl rfl
@[simp] theorem endCycle_halted (s : State) : s.endCycle.halted = s.halted := endCycle_read State.halted s rfl rfl
@[simp] theorem endCycle_faultKind (s : State) : s.endCycle.faultKind = s.faultKind := endCycle_read State.faultKind s rfl rfl
@[simp] theorem endCycle_faultOpcode (s : State) : s.endCycle.faultOpcode = s.faultOpcode :=
  endCycle_read State.faultOpcode s rfl rfl
@[simp] theorem endCycle_faultPc (s : State) : s.endCycle.faultPc = s.faultPc := endCycle_read State.faultPc s rfl rfl
@[simp] theorem endCycle_status (s : State) : s.endCycle.status = s.status := endCycle_read State.status s rfl rfl
@[simp] theorem endCycle_memRead (s : State) (a : Nat) : s.endCycle.memRead a = s.memRead a :=
  endCycle_read (State.memRead · a) s rfl rfl

/-! ## The fault record -/

/-- The truth of the fault record rests on the latch, the record, `pc`, `SP` and memory alone. -/
theorem faultRecordTrue_congr {s t : State} (hrec : SameFaultRecord s t) (hpc : t.pc = s.pc) (hsp : t.sp = s.sp)
    (hmem : SameMem s t) (hs : FaultRecordTrue s) : FaultRecordTrue t := by
  obtain ⟨hhalted, hkind, hopcode, hfaultPc⟩ := hrec
  have hfetch : t.fetch16 t.pc = s.fetch16 s.pc := by simp only [State.fetch16, hpc, hmem _]
  unfold FaultRecordTrue Running Faulted at *
  rwa [hhalted, hkind, hopcode, hfaultPc, hfetch, hpc, hsp]

/-- A state that has kept the latch and the record of a running one has a true record: it is all zero (R26). -/
theorem faultRecordTrue_of_running {s t : State} (hrec : SameFaultRecord s t) (hrun : Running s) (hs : FaultRecordTrue s) :
    FaultRecordTrue t := by
  obtain ⟨hhalted, hkind, hopcode, hfaultPc⟩ := hrec
  obtain ⟨hk, ho, hp⟩ := hs.1 hrun
  refine ⟨fun _ => ⟨hkind.trans hk, hopcode.trans ho, hfaultPc.trans hp⟩, fun hfault => ?_⟩
  cases hrun.symm.trans (hhalted.symm.trans hfault)

/-- The record of the error a fetched instruction raises (R181, R182, R183). -/
theorem faultRecordTrue_raiseFatal {i : Instr} {s : State} {k : FatalKind} (hi : s.fetchDecode = .ok i) (hk : fatalOf i s k) :
    FaultRecordTrue (s.raiseFatal k (encodeWord i)) := by
  have hdec : decodeWord (s.fetch16 s.pc) = .ok i := hi
  have hw := encodeWord_of_decodeWord hdec
  rw [← hw] at hdec
  refine ⟨fun hrun => (by cases hrun), fun _ => ⟨rfl, hw, ?_⟩⟩
  obtain ⟨rfl, nnn, rfl⟩ | ⟨rfl, hsp, nnn, rfl⟩ | ⟨rfl, hsp, rfl⟩ := hk
  · exact .inl ⟨rfl, .inr ⟨nnn, hdec⟩⟩
  · exact .inr (.inl ⟨rfl, hsp, nnn, hdec⟩)
  · exact .inr (.inr ⟨rfl, hsp, hdec⟩)

/-- The record of the error an unassigned word raises (R72, R181). -/
theorem faultRecordTrue_unassigned {s : State} {w : Word} (h : s.fetchDecode = .error (.unassigned w)) :
    FaultRecordTrue (s.raiseFatal .unsupportedOpcode w) := by
  obtain rfl : w = s.fetch16 s.pc := eq_of_decodeWord_unassigned h
  exact ⟨fun hrun => (by cases hrun), fun _ => ⟨rfl, rfl, .inl ⟨rfl, .inl h⟩⟩⟩

/-- The end of a cycle touches nothing the fault record speaks of. -/
theorem faultRecordTrue_endCycle {s : State} (hs : FaultRecordTrue s) : FaultRecordTrue s.endCycle :=
  faultRecordTrue_congr (by simp [SameFaultRecord]) (endCycle_pc s) (endCycle_sp s) (endCycle_memRead s) hs

/-! ## The outputs -/

/-- What an execution must leave for the outputs to agree with the state once the cycle has ended: a status, FATAL exactly when
halted. The beep is the end of the cycle's own (R197). -/
theorem outputsAgree_endCycle {s : State} {r : Status} (hr : s.status = some r) (hhalted : s.halted = true ↔ r = .fatal) :
    OutputsAgree s.endCycle := by
  by_cases hdone : r = .done
  · subst hdone
    rw [endCycle_done hr]
    simp_all [OutputsAgree, tickByte]
  · rw [endCycle_not_done (by simpa [hr] using hdone)]
    simp_all [OutputsAgree]

/-! ## A cycle and a step -/

/-- What the invariant needs of the state in which a cycle ends, before its tick. -/
theorem inv_endCycle {s : State} {r : Status} (hmem : Memory.wf s.font s.mem = true) (hrec : FaultRecordTrue s)
    (hr : s.status = some r) (hhalted : s.halted = true ↔ r = .fatal) : Inv s.endCycle :=
  ⟨by simpa using hmem, faultRecordTrue_endCycle hrec, outputsAgree_endCycle hr hhalted⟩

/-- A cycle establishes the agreement of the outputs anew, so it needs only the other two parts of the invariant. -/
theorem cycle_keeps_inv {u t : State} (hmem : Memory.wf u.font u.mem = true) (hrec : FaultRecordTrue u)
    (h : u.cycle = .next t) : Inv t := by
  obtain ⟨hhalted, rfl⟩ | ⟨i, r, hrun, hfetch, hexec, rfl⟩ | ⟨w, _, hfetch, rfl⟩ := cycle_cases h
  · exact inv_endCycle (r := .fatal) hmem hrec rfl (by simp [State.haltedCycle, hhalted])
  · have hmem' := exec_mem_wf hmem hexec
    obtain ⟨hdone, hsame, _⟩ | ⟨_, _, rfl⟩ | ⟨k, hk, rfl⟩ := exec_cases hexec
    · exact inv_endCycle hmem' (faultRecordTrue_of_running hsame hrun hrec) hdone (by simp [hsame.1, hrun])
    · exact inv_endCycle (r := .needsKey) hmem' hrec rfl (by simp [hrun])
    · exact inv_endCycle (r := .fatal) hmem' (faultRecordTrue_raiseFatal hfetch hk) rfl (by simp)
  · exact inv_endCycle (r := .fatal) hmem (faultRecordTrue_unassigned hfetch) rfl (by simp)

/-- The state a cycle runs in differs from the state before the step in the host's moves and the inputs alone. -/
theorem aboutToCycle_keeps {s u : State} (hu : AboutToCycle s u) (hmem : Memory.wf s.font s.mem = true)
    (hrec : FaultRecordTrue s) : Memory.wf u.font u.mem = true ∧ FaultRecordTrue u := by
  obtain ⟨_, rfl⟩ | ⟨_, _, _, _, rfl⟩ := hu <;> exact ⟨hmem, hrec⟩

/-- The invariant holds right after reset, whatever `FONT` is (R28). -/
theorem inv_resetWith (font : Config.Font) : Inv (State.resetWith font) :=
  ⟨State.resetWith_mem_wf font, ⟨fun _ => ⟨rfl, rfl, rfl⟩, fun h => (by cases h)⟩, by simp [OutputsAgree]⟩

/-- Before the first cycle a load keeps the invariant: a core with no status is not halted, so its record is all zero. -/
theorem load_keeps_inv {s : State} (hs : Inv s) (hstatus : s.status = none) (a : Nat) (rom : List Byte) :
    Inv (s.writeBytes a rom) := by
  obtain ⟨hmem, hrec, hout⟩ := hs
  have hrun : Running s := by simpa [hstatus] using hout.1
  refine ⟨State.wf_writeBytes hmem _ _, faultRecordTrue_of_running (by simp [SameFaultRecord]) hrun hrec, ?_⟩
  simpa [OutputsAgree] using hout

/-- Settles O59: a cycle by `cycle_keeps_inv`; a reset gives the reset state; a load by `load_keeps_inv`; the other moves touch
nothing the invariant speaks of. -/
theorem stepKeepsTheInvariant : Obligations.StepKeepsTheInvariant := by
  intro s t hs h
  have ⟨hmem, hrec, _⟩ := hs
  obtain ⟨u, hu, hcycle⟩ | ⟨keys, rest, _, rfl⟩ | ⟨rest, _, rfl⟩ | ⟨rest, _, rfl⟩ | ⟨rom, rest, _, hstatus, _, rfl⟩ :=
    step_cases h
  · obtain ⟨hmem', hrec'⟩ := aboutToCycle_keeps hu hmem hrec
    exact cycle_keeps_inv hmem' hrec' hcycle
  · exact hs
  · exact hs
  · exact inv_resetWith s.font
  · exact load_keeps_inv (s := s.setHost rest) hs hstatus _ rom

end Sys2Proof.Machine
end

section
/-! O24: how an execution may change `pc` (spec/10_state.md R13; spec/40_flow_control.md R105). -/

namespace Sys2Proof.Machine

open Sys2Proof.Safety

/-- A skip passes to the next instruction or over it (R114). -/
theorem skipIf_pc_cases (s : State) (c : Bool) : (s.skipIf c).pc = s.pc + 2 ∨ (s.skipIf c).pc = s.pc + 4 := by
  cases c
  · exact .inl rfl
  · exact .inr rfl

/-- An execution that does not complete leaves `pc` at its instruction (R77, R184). -/
theorem exec_pc_of_not_done {i : Instr} {s t : State} (h : exec i s = .next t) (ht : t.status ≠ some .done) : t.pc = s.pc := by
  obtain ⟨hdone, _⟩ | ⟨_, _, rfl⟩ | ⟨k, _, rfl⟩ := exec_cases h
  · exact absurd hdone ht
  · rfl
  · rfl

/-- A completed execution of no jump passes to the next instruction, or over it where it is a skip (R13, R114). -/
theorem exec_pc_of_done {i : Instr} {s t : State} (h : exec i s = .next t) (ht : t.status = some .done)
    (hi : isJump i = false) : t.pc = s.pc + 2 ∨ (isSkip i = true ∧ t.pc = s.pc + 4) := by
  cases i
  case ret | jp | call | jpV0 => cases hi
  case sys => cases h; cases ht
  case ldKey x =>
    obtain rfl | ⟨_, rfl⟩ := exec_ldKey_cases h
    · cases ht
    · exact .inl rfl
  case seImm | sneImm | seReg | sneReg | skp | sknp => cases h; exact (skipIf_pc_cases s _).imp_right (⟨rfl, ·⟩)
  all_goals cases h; exact .inl (by simp)

/-- Settles O24: the two ends of an execution, each by its own lemma. -/
theorem pcAdvancesByTwoOrFourUnlessJumping : Obligations.PcAdvancesByTwoOrFourUnlessJumping :=
  fun _ _ _ h => ⟨exec_pc_of_done h, exec_pc_of_not_done h⟩

end Sys2Proof.Machine
end

section
/-! O48: which instructions touch the keys, the draw request and the screen (spec/10_state.md R20, R22; spec/44_display.md R154). -/

namespace Sys2Proof.Machine

open Sys2Proof.Safety

/-- No instruction writes `KEY` (R20). -/
theorem exec_key {i : Instr} {s t : State} (h : exec i s = .next t) : t.key = s.key := by
  cases i
  case ret => obtain ⟨_, _, rfl⟩ | rfl := exec_ret_cases h <;> rfl
  case call nnn => obtain ⟨_, _, rfl⟩ | rfl := exec_call_cases h <;> rfl
  case ldKey x => obtain rfl | ⟨_, rfl⟩ := exec_ldKey_cases h <;> rfl
  all_goals cases h; simp

/-- The two instructions that write the framebuffer and `DRAW_REQ` request a draw (R22, R150, R151). -/
theorem exec_cls_drawReq {s t : State} (h : exec .cls s = .next t) : t.drawReq = true := by
  cases h
  rfl

theorem exec_drw_drawReq {x y n : Nibble} {s t : State} (h : exec (.drw x y n) s = .next t) : t.drawReq = true := by
  cases h
  rfl

/-- No other instruction touches either of the two (R154). -/
theorem exec_screen {i : Instr} {s t : State} (hcls : i ≠ .cls) (hdrw : ∀ x y n : Nibble, i ≠ .drw x y n)
    (h : exec i s = .next t) : t.drawReq = s.drawReq ∧ t.fb = s.fb := by
  cases i
  case cls => exact absurd rfl hcls
  case drw x y n => exact absurd rfl (hdrw x y n)
  case ret => obtain ⟨_, _, rfl⟩ | rfl := exec_ret_cases h <;> exact ⟨rfl, rfl⟩
  case call nnn => obtain ⟨_, _, rfl⟩ | rfl := exec_call_cases h <;> exact ⟨rfl, rfl⟩
  case ldKey x => obtain rfl | ⟨_, rfl⟩ := exec_ldKey_cases h <;> exact ⟨rfl, rfl⟩
  all_goals cases h; simp

/-- No instruction clears `DRAW_REQ` (R22). -/
theorem exec_keeps_drawReq {i : Instr} {s t : State} (h : exec i s = .next t) (hs : s.drawReq = true) : t.drawReq = true := by
  by_cases hcls : i = .cls
  · subst hcls
    exact exec_cls_drawReq h
  · by_cases hdrw : ∃ x y n, i = .drw x y n
    · obtain ⟨x, y, n, rfl⟩ := hdrw
      exact exec_drw_drawReq h
    · rw [(exec_screen hcls (fun x y n e => hdrw ⟨x, y, n, e⟩) h).1, hs]

/-- Settles O48: the keys by `exec_key`, the draw request and the pixels by `exec_screen`. -/
theorem noInstructionWritesKeysOrClearsDrawRequest : Obligations.NoInstructionWritesKeysOrClearsDrawRequest := by
  intro i s t h
  refine ⟨fun k => by rw [exec_key h], exec_keeps_drawReq h, fun hcls hdrw => ?_⟩
  obtain ⟨hreq, hfb⟩ := exec_screen hcls hdrw h
  exact ⟨hreq, fun k => by rw [State.pixel, State.pixel, hfb]⟩

end Sys2Proof.Machine
end

section
/-! O49 and O50: the two inputs reach one instruction each (spec/10_state.md R34, R37). Presenting other inputs commutes with every
operation of the core, so an execution that reads no changed input gives the same state with the other inputs in place. -/

namespace Sys2Proof.Machine

open Sys2Proof.Safety

variable (s : State) (k : Option Nibble) (r : Byte)

theorem present_writeBytes (a : Nat) (bs : List Byte) : (s.present k r).writeBytes a bs = (s.writeBytes a bs).present k r := by
  induction bs generalizing s a with
  | nil => rfl
  | cons b bs ih => exact ih (s.memWrite a b) (a + 1)

theorem present_writeRegs (a : Nat) (bs : List Byte) : (s.present k r).writeRegs a bs = (s.writeRegs a bs).present k r := by
  induction bs generalizing s a with
  | nil => rfl
  | cons b bs ih => exact ih (s.setV (BitVec.ofNat 4 a) b) (a + 1)

theorem present_drawSprite (vx vy : Byte) (bs : List Byte) :
    (s.present k r).drawSprite vx vy bs = ((s.drawSprite vx vy bs).1.present k r, (s.drawSprite vx vy bs).2) := by
  have hfold (ks : List Nat) (p : State × Bool) :
      ks.foldl State.drawPixel (p.1.present k r, p.2) =
        ((ks.foldl State.drawPixel p).1.present k r, (ks.foldl State.drawPixel p).2) := by
    induction ks generalizing p with
    | nil => rfl
    | cons q ks ih => exact ih (State.drawPixel p q)
  exact hfold _ (s, false)

variable {s k r}

/-- An execution with other inputs presented: the same, with them in place, unless it reads one that changed (R34, R37). -/
theorem exec_present {i : Instr} {t : State} (hk : ∀ x, i = .ldKey x → k = s.keyPress) (hr : ∀ x kk, i = .rnd x kk → r = s.randByte)
    (h : exec i s = .next t) : exec i (s.present k r) = .next (t.present k r) := by
  cases i
  case ret =>
    by_cases hs : s.sp.val = 0
    · cases (exec_ret_empty hs).symm.trans h
      exact exec_ret_empty (s := s.present k r) hs
    · cases (exec_ret_pos (Nat.pos_of_ne_zero hs)).symm.trans h
      exact exec_ret_pos (s := s.present k r) (Nat.pos_of_ne_zero hs)
  case call nnn =>
    by_cases hs : s.sp.val < 16
    · cases (exec_call_lt nnn hs).symm.trans h
      exact exec_call_lt (s := s.present k r) nnn hs
    · have hfull : s.sp.val = 16 := by omega
      cases (exec_call_full nnn hfull).symm.trans h
      exact exec_call_full (s := s.present k r) nnn hfull
  case ldKey x =>
    cases hk x rfl
    cases hp : s.keyPress with
    | none =>
      cases (exec_ldKey_none x hp).symm.trans h
      exact exec_ldKey_none (s := s.present none r) x rfl
    | some c =>
      cases (exec_ldKey_some x hp).symm.trans h
      exact exec_ldKey_some (s := s.present (some c) r) x rfl
  case rnd x kk =>
    cases hr x kk rfl
    cases h
    rfl
  case drw x y n =>
    cases h
    exact congrArg (fun p : State × Bool => ((p.1.setV vf (flagByte p.2)).requestDraw).advance.complete)
      (present_drawSprite s k r _ _ _)
  case storeBcd x =>
    cases h
    exact congrArg (·.advance.complete) (present_writeBytes s k r _ _)
  case storeRegs x =>
    cases h
    exact congrArg (fun u : State => (u.setI (s.indexAfterBlock x)).advance.complete) (present_writeBytes s k r _ _)
  case loadRegs x =>
    cases h
    exact congrArg (fun u : State => (u.setI (s.indexAfterBlock x)).advance.complete) (present_writeRegs s k r _ _)
  all_goals cases h; rfl

/-- No execution writes one of the two inputs: they belong to the outside world (R27, R34, R37). -/
theorem exec_inputs {i : Instr} {t : State} (h : exec i s = .next t) : t.keyPress = s.keyPress ∧ t.randByte = s.randByte := by
  obtain ⟨_, _, _, hkey, hrand, _⟩ | ⟨_, _, rfl⟩ | ⟨_, _, rfl⟩ := exec_cases h
  · exact ⟨hkey, hrand⟩
  · exact ⟨rfl, rfl⟩
  · exact ⟨rfl, rfl⟩

/-- Settles O49, by `exec_present` with the random byte that stands in the state. -/
theorem keyPressReachesOnlyFx0a : Obligations.KeyPressReachesOnlyFx0a := by
  intro i s t k hi h
  rw [(exec_inputs h).2]
  exact exec_present (fun x e => absurd e (hi x)) (fun _ _ _ => rfl) h

/-- Settles O50, by `exec_present` with the key press that stands in the state. -/
theorem randomByteReachesOnlyCxkk : Obligations.RandomByteReachesOnlyCxkk := by
  intro i s t r hi h
  rw [(exec_inputs h).1]
  exact exec_present (fun _ _ => rfl) (fun x kk e => absurd e (hi x kk)) h

end Sys2Proof.Machine
end

section
/-! O1, O2, O3, O51 and O53: the reset state, and what each of the host's moves between cycles does and leaves unchanged
(spec/10_state.md R28, R31 to R33, R35). -/

namespace Sys2Proof.Machine

open Sys2Proof.Safety

/-! ## The reset state -/

@[simp] theorem getV_resetWith (font : Config.Font) (x : Nibble) : (State.resetWith font).getV x = 0x00#8 := by
  simp [State.getV]

@[simp] theorem pixel_resetWith (font : Config.Font) (k : Nat) : (State.resetWith font).pixel k = false := by
  simp [State.pixel]

/-- Reset memory holds `FONT` below 0x050 (R24, R28). -/
theorem memRead_resetWith_font (font : Config.Font) {a : Nat} (h : a < 80) : (State.resetWith font).memRead a = font[a] := by
  rw [State.memRead_resetWith, Nat.mod_eq_of_lt (h.trans (by decide)), Memory.resetByte_font h]

/-- Reset memory is 0x00 from 0x050 up (R28). -/
theorem memRead_resetWith_above (font : Config.Font) {a : Nat} (h : 80 ≤ a) (ha : a < 4096) :
    (State.resetWith font).memRead a = 0x00#8 := by
  rw [State.memRead_resetWith, Nat.mod_eq_of_lt ha, Memory.resetByte_above h]

/-- Settles O1: each field of the reset state by its own lemma, memory by the two ranges. -/
theorem resetLeavesTheTableValues : Obligations.ResetLeavesTheTableValues := by
  intro font
  have hlow (a : Nat) (h : a < 0x050) := memRead_resetWith_font font h
  have hhigh (a : Nat) (h : 0x050 ≤ a) (ha : a < 4096) := memRead_resetWith_above font h ha
  simpa using And.intro hlow hhigh

/-- Settles O2, by `inv_resetWith`, which `State.reset` meets with the default `FONT`. -/
theorem resetSatisfiesTheInvariant : Obligations.ResetSatisfiesTheInvariant :=
  ⟨inv_resetWith, inv_resetWith Config.defaultFont⟩

/-! ## The moves between cycles -/

/-- A step with a host move in front makes that move (R216). -/
theorem step_of_host {s : State} {m : HostMove} {rest : List HostMove} (h : s.host = m :: rest) :
    step s = (s.setHost rest).applyMove m := by
  simp [step, State.hostStep, h]

/-- What a load before the first cycle does (R32, R213). -/
theorem applyLoad_of_fits {s : State} {rom : List Byte} (hs : s.status = none) (h : rom.length ≤ Config.maxRom) :
    s.applyLoad rom = .next (s.writeBytes Config.entry rom) := by
  simp [State.applyLoad, hs, Nat.not_lt.mpr h]

/-- A stored block changes no byte outside it (R42). -/
theorem sameMemBut_writeBytes (s : State) (a : Nat) (bs : List Byte) : SameMemBut a bs.length s (s.writeBytes a bs) :=
  fun q hq => State.memRead_writeBytes_outside s a bs q hq

/-- A stored block changes nothing of the core but memory (R42). -/
theorem frameBut_writeBytes (s : State) (a : Nat) (bs : List Byte) : FrameBut [] [] s (s.writeBytes a bs) := by
  simp [FrameBut, SameRegsBut, SameStack, SameScreen, SameFaultRecord, SameKeys]

/-- An image that fits reads back from canonical memory, byte `k` at 0x200 + k (R213). -/
theorem programPresent_writeBytes {s : State} {rom : List Byte} (hs : Memory.wf s.font s.mem = true)
    (h : rom.length ≤ Config.maxRom) : ProgramPresent rom (s.writeBytes Config.entry rom) :=
  State.memRead_writeBytes_inside hs Config.entry rom (h.trans (by decide))

/-- Settles O3: the step is `State.applyReset`, whose core state is the reset state's field by field. -/
theorem resetMoveRestoresTheResetState : Obligations.ResetMoveRestoresTheResetState := by
  intro s rest h
  refine ⟨_, step_of_host h, ?_, rfl, rfl, rfl, rfl⟩
  simp [SameCore, SameButFault, SameRegsBut, SameStack, SameKeys, SameScreen, SameMem, SameFaultRecord]

/-- Settles O51: the step is `State.writeBytes` of the image at 0x200. -/
theorem loadCopiesTheImage : Obligations.LoadCopiesTheImage := by
  intro s rom rest h hmem hstatus hlen
  have hstep : step s = .next ((s.setHost rest).writeBytes Config.entry rom) :=
    (step_of_host h).trans (applyLoad_of_fits hstatus hlen)
  exact ⟨_, hstep, programPresent_writeBytes hmem hlen, sameMemBut_writeBytes _ _ _, frameBut_writeBytes _ _ _,
    writeBytes_pc _ _ _, (writeBytes_status _ _ _).trans hstatus, writeBytes_host _ _ _⟩

/-- Settles O53: the two moves set one field each. -/
theorem keyAndFrameMovesChangeOnlyTheirs : Obligations.KeyAndFrameMovesChangeOnlyTheirs := by
  intro s rest
  constructor
  · intro keys h
    refine ⟨_, step_of_host h, ?_⟩
    simp [SameRegsBut, SameStack, SameScreen, SameMem, SameFaultRecord]
  · intro h
    refine ⟨_, step_of_host h, ?_⟩
    simp [FrameBut, SameRegsBut, SameStack, SameScreen, SameFaultRecord, SameKeys, SameMem]

end Sys2Proof.Machine
end

section
/-! O9, O10, O11, O39 and O58: memory and fetch (spec/20_memory.md sections 1, 2, 4 and 6). First the decoder on an encoded word and
a fetch as a number; then the stored instruction, and what executions, cycles and steps do to memory. -/

namespace Sys2Proof

/-- The decoder gives back a well-formed instruction from its word. Only 0NNN can miss: two values of `NNN` are other rows (R64). -/
theorem decodeWord_encodeWord {i : Instr} (hi : i.wellFormed = true) : decodeWord (encodeWord i) = .ok i := by
  cases i
  case sys nnn =>
    obtain ⟨hcls, hret⟩ : nnn ≠ 0x0E0#12 ∧ nnn ≠ 0x0EE#12 := by simpa [Instr.wellFormed] using hi
    simp [encodeWord, decodeWord, decodeFields, decodeZero, hcls, hret]
  case cls | ret => rfl
  all_goals simp [encodeWord, decodeWord, decodeFields, decodeIfZero, decodeAlu, decodeKey, decodeMisc]

/-- A word numbered as the opcode table numbers it is that word. -/
@[simp] theorem tableWord_toNat (w : Word) : tableWord 16 w.toNat = w := by
  rw [tableWord, Nat.mod_eq_of_lt w.isLt, BitVec.ofNat_toNat, BitVec.setWidth_eq]

end Sys2Proof

namespace Sys2Proof.Machine

open Sys2Proof.Safety

/-! ## Reads and fetches -/

/-- A read reduces its address itself (R42). -/
theorem State.memRead_mod (s : State) (a : Nat) : s.memRead (a % Config.memSize) = s.memRead a := by
  rw [State.memRead, Nat.mod_mod, State.memRead]

/-- A read sees the list that holds memory and `FONT` alone. -/
theorem State.memRead_congr {s t : State} (hfont : t.font = s.font) (hmem : t.mem = s.mem) (a : Nat) : t.memRead a = s.memRead a := by
  rw [State.memRead, hfont, hmem, State.memRead]

/-- The two bytes of a word stored on canonical memory are fetched as that word, at the top of memory too (R44, R51). -/
theorem State.fetch16_writeBytes {s : State} (hs : Memory.wf s.font s.mem = true) (a w : Word) :
    (s.writeBytes a.toNat [(bytesOfWord w).1, (bytesOfWord w).2]).fetch16 a = w := by
  have hbyte := State.memRead_writeBytes_inside hs a.toNat [(bytesOfWord w).1, (bytesOfWord w).2] (by simp [Config.memSize])
  have hhi := hbyte 0 (by simp)
  have hlo := hbyte 1 (by simp)
  exact (congrArg₂ wordOfBytes hhi hlo).trans (wordOfBytes_bytesOfWord w)

@[simp] theorem placeWord_pc (s : State) (w : Word) : (s.placeWord w).pc = s.pc := writeBytes_pc s _ _

/-- The next cycle fetches a word placed on canonical memory (R51). -/
theorem State.fetch16_placeWord {s : State} (hs : Memory.wf s.font s.mem = true) (w : Word) :
    (s.placeWord w).fetch16 s.pc = w := State.fetch16_writeBytes hs s.pc w

/-! ## A cycle -/

/-- The state a cycle runs in has the memory of the state before the step. -/
theorem mem_of_aboutToCycle {s u : State} (h : AboutToCycle s u) : u.mem = s.mem := by
  obtain ⟨_, rfl⟩ | ⟨_, _, _, _, rfl⟩ := h <;> rfl

/-- A cycle keeps memory canonical: its only stores are the execution's. -/
theorem cycle_mem_wf {u t : State} (hu : Memory.wf u.font u.mem = true) (h : u.cycle = .next t) :
    Memory.wf t.font t.mem = true := by
  obtain ⟨_, rfl⟩ | ⟨i, r, _, _, hexec, rfl⟩ | ⟨w, _, _, rfl⟩ := cycle_cases h
  · rwa [endCycle_font, endCycle_mem]
  · rw [endCycle_font, endCycle_mem]
    exact exec_mem_wf hu hexec
  · rwa [endCycle_font, endCycle_mem]

/-! ## The obligations -/

/-- Settles O58, over the cases of a step: a cycle by `cycle_mem_wf`, a reset lists nothing, a load goes through
`State.writeBytes`, and the other two moves leave memory alone. -/
theorem stepKeepsMemoryCanonical : Obligations.StepKeepsMemoryCanonical := by
  intro s t hs h
  obtain ⟨u, hu, hcycle⟩ | ⟨keys, rest, _, rfl⟩ | ⟨rest, _, rfl⟩ | ⟨rest, _, rfl⟩ | ⟨rom, rest, _, _, _, rfl⟩ := step_cases h
  · have hu' : Memory.wf u.font u.mem = true := by rwa [font_of_aboutToCycle hu, mem_of_aboutToCycle hu]
    exact cycle_mem_wf hu' hcycle
  · exact hs
  · exact hs
  · exact State.resetWith_mem_wf s.font
  · exact State.wf_writeBytes (s := s.setHost rest) hs _ rom

/-- Settles O11: the placed word is fetched, and the decoder gives its instruction back. -/
theorem storedInstructionIsFetched : Obligations.StoredInstructionIsFetched := by
  intro s i hs hi
  rw [State.withFetchWord, tableWord_toNat, fetchDecode_eq, placeWord_pc, State.fetch16_placeWord hs]
  exact ⟨decodeWord_encodeWord hi, rfl⟩

/-- Settles O39: neither `FONT` nor the list that holds memory changes. -/
theorem onlyStoresChangeMemory : Obligations.OnlyStoresChangeMemory :=
  fun _ _ _ hi h => State.memRead_congr (exec_font h) (exec_mem hi h)

/-- Settles O9, by the two rules of a memory write. -/
theorem readAfterWrite : Obligations.ReadAfterWrite :=
  fun _ a a' b hs => ⟨State.memRead_memWrite hs a a' b, State.wf_memWrite hs a b⟩

/-- Settles O10: the word of two bytes as a number, its two reads reducing their addresses. -/
theorem fetchIsBigEndianAndWraps : Obligations.FetchIsBigEndianAndWraps := by
  intro s a
  rw [State.memRead_mod, State.memRead_mod, State.fetch16, wordOfBytes_toNat, Nat.mul_comm]

end Sys2Proof.Machine
end

section
/-! O4 to O8: the decoder against the encoder, the ordered table and the list of unassigned words (spec/30_encoding.md sections 2
and 3). The table is read in two levels as the decoder is: a word can only match rows of its own `OP`, and these are told apart by
the low nibble, the low byte or the low 12 bits. -/

namespace Sys2Proof

open Sys2Proof.Safety

/-! ## Fields of an assembled word, and words by their fields -/

@[simp] theorem fieldKK_wordXYN (op x y n : Nibble) : fieldKK (wordXYN op x y n) = y ++ n := by
  have := op.isLt; have := x.isLt; have := y.isLt; have := n.isLt
  apply BitVec.eq_of_toNat_eq; rw [fieldKK_toNat, wordXYN_toNat, append_toNat]; omega

theorem wordNNN_inj {op op' : Nibble} {nnn nnn' : Addr12} : wordNNN op nnn = wordNNN op' nnn' ↔ op = op' ∧ nnn = nnn' := by
  refine ⟨fun h => ⟨?_, ?_⟩, fun ⟨hop, hnnn⟩ => by rw [hop, hnnn]⟩
  · simpa using congrArg fieldOp h
  · simpa using congrArg fieldNNN h

theorem wordXKK_inj {op op' x x' : Nibble} {kk kk' : Byte} :
    wordXKK op x kk = wordXKK op' x' kk' ↔ op = op' ∧ x = x' ∧ kk = kk' := by
  refine ⟨fun h => ⟨?_, ?_, ?_⟩, fun ⟨hop, hx, hkk⟩ => by rw [hop, hx, hkk]⟩
  · simpa using congrArg fieldOp h
  · simpa using congrArg fieldX h
  · simpa using congrArg fieldKK h

theorem wordXYN_inj {op op' x x' y y' n n' : Nibble} :
    wordXYN op x y n = wordXYN op' x' y' n' ↔ op = op' ∧ x = x' ∧ y = y' ∧ n = n' := by
  refine ⟨fun h => ⟨?_, ?_, ?_, ?_⟩, fun ⟨hop, hx, hy, hn⟩ => by rw [hop, hx, hy, hn]⟩
  · simpa using congrArg fieldOp h
  · simpa using congrArg fieldX h
  · simpa using congrArg fieldY h
  · simpa using congrArg fieldN h

/-! ## What the decoder reads and what it rejects -/

/-- Of the words of `OP` = 0x0, 0NNN is read only where neither special word stands (R64). -/
theorem decodeZero_eq_sys {nnn nnn' : Addr12} (h : decodeZero nnn = .sys nnn') : (Instr.sys nnn').wellFormed = true := by
  unfold decodeZero at h
  split_ifs at h with hcls hret
  cases h
  simp [Instr.wellFormed, hcls, hret]

/-- Only well-formed instructions are read: an ill-formed one could only be 0NNN, whose word `decodeZero` reads. -/
theorem wellFormed_of_decodeWord {w : Word} {i : Instr} (h : decodeWord w = .ok i) : i.wellFormed = true := by
  cases i
  case sys nnn =>
    rw [← encodeWord_of_decodeWord h] at h
    have hzero : decodeWord (encodeWord (.sys nnn)) = .ok (decodeZero nnn) := by simp [encodeWord, decodeWord, decodeFields]
    exact decodeZero_eq_sys (Except.ok.inj (hzero.symm.trans h))
  all_goals rfl

theorem decodeIfZero_eq_none_iff {n : Nibble} {i : Instr} : decodeIfZero n i = none ↔ n ≠ 0x0 := by simp [decodeIfZero]

theorem decodeAlu_eq_none_iff {x y n : Nibble} :
    decodeAlu x y n = none ↔ n ∈ [0x8#4, 0x9#4, 0xA#4, 0xB#4, 0xC#4, 0xD#4, 0xF#4] := by
  unfold decodeAlu
  split_ifs
  case neg => clear x y; revert n; decide
  all_goals simp [*]

theorem decodeKey_eq_none_iff {x : Nibble} {kk : Byte} : decodeKey x kk = none ↔ kk ∉ [0x9E#8, 0xA1#8] := by
  unfold decodeKey
  split_ifs <;> simp [*]

theorem decodeMisc_eq_none_iff {x : Nibble} {kk : Byte} :
    decodeMisc x kk = none ↔ kk ∉ [0x07#8, 0x0A#8, 0x15#8, 0x18#8, 0x1E#8, 0x29#8, 0x33#8, 0x55#8, 0x65#8] := by
  unfold decodeMisc
  split_ifs <;> simp [*]

/-- A rejection under the word's own name is the answer of the two-level dispatch that no row matches (R72). -/
theorem decodeWord_eq_unassigned_iff {w : Word} : decodeWord w = .error (.unassigned w) ↔ decodeFields w = none := by
  obtain ⟨i, hfields, hword⟩ | ⟨hfields, hword⟩ := decodeWord_cases w <;> simp [hfields, hword]

/-! ## The ordered table, family by family -/

/-- The rows of R65 for the words of one `OP`, in the order of the table. -/
def rowsOfOp (op : Nibble) : List OpcodeRow := opcodeTable.filter fun r => fieldOp r.value == op

/-- A word matches no row of another `OP`: every mask of the table keeps the top nibble. -/
theorem fieldOp_of_row_matches {w : Word} {r : OpcodeRow} (hr : r ∈ opcodeTable) (h : w &&& r.mask = r.value) :
    fieldOp r.value = fieldOp w := by
  have hmask : ∀ r ∈ opcodeTable, fieldOp r.mask = BitVec.allOnes 4 := by decide
  rw [← h, fieldOp, BitVec.extractLsb'_and]
  exact (congrArg (fieldOp w &&& ·) (hmask r hr)).trans BitVec.and_allOnes

/-- So the first row that a word matches is the first one of its own `OP`. -/
theorem firstRow_eq_find_rowsOfOp (w : Word) :
    firstRow w = ((rowsOfOp (fieldOp w)).find? fun r => w &&& r.mask == r.value).map OpcodeRow.number := by
  rw [firstRow, rowsOfOp, List.find?_filter]
  congr 1
  refine List.find?_congr fun r hr => ?_
  by_cases h : w &&& r.mask = r.value
  · simp [h, fieldOp_of_row_matches hr h]
  · simp [h]

/-! ### What a row asks of a word, by its mask -/

theorem and_all_eq_iff {w : Word} {op : Nibble} {nnn : Addr12} :
    w &&& 0xFFFF#16 = wordNNN op nnn ↔ fieldOp w = op ∧ fieldNNN w = nnn := by
  rw [← wordNNN_inj, wordNNN_fields, show w &&& 0xFFFF#16 = w from BitVec.and_allOnes]

theorem and_top_eq_iff {w : Word} {op : Nibble} : w &&& 0xF000#16 = wordNNN op 0x000#12 ↔ fieldOp w = op := by
  have h := Laws.EncodesItsRow.and_top_wordNNN (fieldOp w) (fieldNNN w)
  rw [wordNNN_fields] at h
  rw [h]
  exact wordNNN_inj.trans (and_iff_left rfl)

theorem and_ends_eq_iff {w : Word} {op n : Nibble} :
    w &&& 0xF00F#16 = wordXYN op 0x0#4 0x0#4 n ↔ fieldOp w = op ∧ fieldN w = n := by
  have h := Laws.EncodesItsRow.and_ends_wordXYN (fieldOp w) (fieldX w) (fieldY w) (fieldN w)
  rw [wordXYN_fields] at h
  rw [h]
  exact wordXYN_inj.trans (by simp)

theorem and_key_eq_iff {w : Word} {op : Nibble} {kk : Byte} :
    w &&& 0xF0FF#16 = wordXKK op 0x0#4 kk ↔ fieldOp w = op ∧ fieldKK w = kk := by
  have h := Laws.EncodesItsRow.and_key_wordXKK (fieldOp w) (fieldX w) (fieldKK w)
  rw [wordXKK_fields] at h
  rw [h]
  exact wordXKK_inj.trans (by simp)

/-! ### The first row within a family -/

/-- The family whose rows are the two special words and then 0NNN (R64). -/
theorem firstRow_of_op_zero {w : Word} (hop : fieldOp w = 0x0#4) :
    firstRow w = some (rowNumber (decodeZero (fieldNNN w))) := by
  have hrows : rowsOfOp 0x0#4 = [⟨1, 0xFFFF#16, wordNNN 0x0#4 0x0E0#12⟩, ⟨2, 0xFFFF#16, wordNNN 0x0#4 0x0EE#12⟩,
    ⟨3, 0xF000#16, wordNNN 0x0#4 0x000#12⟩] := rfl
  rw [firstRow_eq_find_rowsOfOp, hop, hrows]
  unfold decodeZero
  split_ifs <;> simp [*, and_all_eq_iff, and_top_eq_iff, rowNumber]

/-- A family with one row, which leaves all but `OP` to the operands. -/
theorem firstRow_of_top {w : Word} {op : Nibble} {k : Nat} (hop : fieldOp w = op)
    (hrows : rowsOfOp op = [⟨k, 0xF000#16, wordNNN op 0x000#12⟩]) : firstRow w = some k := by
  rw [firstRow_eq_find_rowsOfOp, hop, hrows]
  simp [and_top_eq_iff, hop]

/-- A family whose rows are told apart by the low nibble. -/
theorem firstRow_of_ends {w : Word} {op : Nibble} {l : List (Nat × Nibble)} (hop : fieldOp w = op)
    (hrows : rowsOfOp op = l.map fun p => ⟨p.1, 0xF00F#16, wordXYN op 0x0#4 0x0#4 p.2⟩) :
    firstRow w = (l.find? fun p => fieldN w == p.2).map Prod.fst := by
  rw [firstRow_eq_find_rowsOfOp, hop, hrows, List.find?_map, Option.map_map]
  simp only [Function.comp_def, beq_eq_decide, and_ends_eq_iff, hop, true_and]

/-- A family whose rows are told apart by the low byte. -/
theorem firstRow_of_key {w : Word} {op : Nibble} {l : List (Nat × Byte)} (hop : fieldOp w = op)
    (hrows : rowsOfOp op = l.map fun p => ⟨p.1, 0xF0FF#16, wordXKK op 0x0#4 p.2⟩) :
    firstRow w = (l.find? fun p => fieldKK w == p.2).map Prod.fst := by
  rw [firstRow_eq_find_rowsOfOp, hop, hrows, List.find?_map, Option.map_map]
  simp only [Function.comp_def, beq_eq_decide, and_key_eq_iff, hop, true_and]

/-- Row number and low nibble of the rows of `OP` = 0x8. -/
def aluRows : List (Nat × Nibble) :=
  [(11, 0x0), (12, 0x1), (13, 0x2), (14, 0x3), (15, 0x4), (16, 0x5), (17, 0x6), (18, 0x7), (19, 0xE)]

/-- Row number and low byte of the rows of `OP` = 0xE. -/
def keyRows : List (Nat × Byte) := [(25, 0x9E), (26, 0xA1)]

/-- Row number and low byte of the rows of `OP` = 0xF. -/
def miscRows : List (Nat × Byte) :=
  [(27, 0x07), (28, 0x0A), (29, 0x15), (30, 0x18), (31, 0x1E), (32, 0x29), (33, 0x33), (34, 0x55), (35, 0x65)]

theorem find_ifZeroRow (k : Nat) (n : Nibble) (i : Instr) (hi : rowNumber i = k) :
    (([(k, 0x0)] : List (Nat × Nibble)).find? fun p => n == p.2).map Prod.fst = (decodeIfZero n i).map rowNumber := by
  unfold decodeIfZero
  split_ifs <;> simp [*]

theorem find_aluRows (x y n : Nibble) :
    (aluRows.find? fun p => n == p.2).map Prod.fst = (decodeAlu x y n).map rowNumber := by
  unfold decodeAlu
  split_ifs <;> simp [*, aluRows, rowNumber]

theorem find_keyRows (x : Nibble) (kk : Byte) :
    (keyRows.find? fun p => kk == p.2).map Prod.fst = (decodeKey x kk).map rowNumber := by
  unfold decodeKey
  split_ifs <;> simp [*, keyRows, rowNumber]

theorem find_miscRows (x : Nibble) (kk : Byte) :
    (miscRows.find? fun p => kk == p.2).map Prod.fst = (decodeMisc x kk).map rowNumber := by
  unfold decodeMisc
  split_ifs <;> simp [*, miscRows, rowNumber]

/-- The two-level dispatch finds the first row of the table. -/
theorem firstRow_eq_decodeFields (w : Word) : firstRow w = (decodeFields w).map rowNumber := by
  unfold decodeFields
  generalize hop : fieldOp w = op
  obtain ⟨op, hlt⟩ := op
  interval_cases op
  -- the sixteen values of `OP`, from 0x0 up
  · exact firstRow_of_op_zero hop
  · exact firstRow_of_top (op := 0x1) hop rfl
  · exact firstRow_of_top (op := 0x2) hop rfl
  · exact firstRow_of_top (op := 0x3) hop rfl
  · exact firstRow_of_top (op := 0x4) hop rfl
  · exact (firstRow_of_ends (op := 0x5) hop rfl).trans (find_ifZeroRow 8 _ _ rfl)
  · exact firstRow_of_top (op := 0x6) hop rfl
  · exact firstRow_of_top (op := 0x7) hop rfl
  · exact (firstRow_of_ends (op := 0x8) hop rfl).trans (find_aluRows _ _ _)
  · exact (firstRow_of_ends (op := 0x9) hop rfl).trans (find_ifZeroRow 20 _ _ rfl)
  · exact firstRow_of_top (op := 0xA) hop rfl
  · exact firstRow_of_top (op := 0xB) hop rfl
  · exact firstRow_of_top (op := 0xC) hop rfl
  · exact firstRow_of_top (op := 0xD) hop rfl
  · exact (firstRow_of_key (op := 0xE) hop rfl).trans (find_keyRows _ _)
  · exact (firstRow_of_key (op := 0xF) hop rfl).trans (find_miscRows _ _)

/-! ## The obligations -/

/-- Settles O5, by the decoder on an encoded word. -/
theorem decodeOfEncodeIsTheInstruction : Obligations.DecodeOfEncodeIsTheInstruction := by
  intro i hi
  rw [decode, encode, wordOfBytes_bytesOfWord]
  exact decodeWord_encodeWord hi

/-- Settles O6: the encoder gives the word back, and the word its two bytes. -/
theorem encodeOfDecodeIsTheBytes : Obligations.EncodeOfDecodeIsTheBytes := by
  intro hi lo i h
  refine ⟨wellFormed_of_decodeWord h, ?_⟩
  rw [encode, encodeWord_of_decodeWord h, bytesOfWord_wordOfBytes]

/-- Settles O7, by `firstRow_eq_decodeFields` over the answers of the decoder. -/
theorem decoderFollowsTheOrderedTable : Obligations.DecoderFollowsTheOrderedTable := by
  intro w
  rw [firstRow_eq_decodeFields]
  obtain ⟨i, hfields, hword⟩ | ⟨hfields, hword⟩ := decodeWord_cases w
  · rw [hfields, hword]; rfl
  · rw [hfields, hword]; rfl

/-- Settles O8: the dispatch answers none in five families only, in each where the second level does. -/
theorem unassignedWordsAreExactlyTheListed : Obligations.UnassignedWordsAreExactlyTheListed := by
  rintro op x y n w rfl
  rw [decodeWord_eq_unassigned_iff]
  unfold decodeFields
  obtain ⟨op, hlt⟩ := op
  interval_cases op
  all_goals simp [decodeIfZero_eq_none_iff, decodeAlu_eq_none_iff, decodeKey_eq_none_iff, decodeMisc_eq_none_iff]

/-- Settles O4, by running the decoder on each word. -/
theorem sampleWordsDecode : Obligations.SampleWordsDecode := by
  unfold Obligations.SampleWordsDecode
  decide

end Sys2Proof
end

section
/-! O12, O14 and O56: every execution and every cycle answers a next state, and the ways in which a cycle ends
(spec/30_encoding.md section 5; spec/60_exceptions.md R184, R187). -/

namespace Sys2Proof.Machine

open Sys2Proof.Safety

/-- The three instructions with more than one outcome have an equation for each; all others answer by definition. -/
theorem exec_next (i : Instr) (s : State) : ∃ t, exec i s = .next t := by
  cases i
  case ret =>
    by_cases hsp : s.sp.val = 0
    · exact ⟨_, exec_ret_empty hsp⟩
    · exact ⟨_, exec_ret_pos (by omega)⟩
  case call nnn =>
    by_cases hsp : s.sp.val = 16
    · exact ⟨_, exec_call_full nnn hsp⟩
    · exact ⟨_, exec_call_lt nnn (by omega)⟩
  case ldKey x =>
    cases hkey : s.keyPress with
    | none => exact ⟨_, exec_ldKey_none x hkey⟩
    | some c => exact ⟨_, exec_ldKey_some x hkey⟩
  all_goals exact ⟨_, rfl⟩

theorem cycle_next (u : State) : ∃ t, u.cycle = .next t := by
  cases hhalted : u.halted with
  | true => exact ⟨_, cycle_halted hhalted⟩
  | false =>
    match hfetch : u.fetchDecode with
    | .ok i =>
      obtain ⟨t, hexec⟩ := exec_next i u
      exact ⟨t.endCycle, by rw [cycle_ok hhalted hfetch, hexec]; rfl⟩
    | .error (.unassigned w) => exact ⟨_, cycle_error hhalted hfetch⟩

/-- The end of a cycle with no tick changes none of the core's state and does not beep (R76, R197). -/
theorem sameCore_endCycle {s : State} (h : s.status ≠ some .done) :
    SameCore s s.endCycle ∧ s.endCycle.beep = some false := by
  rw [endCycle_not_done h]
  simp [SameCore, SameButFault, SameFaultRecord, SameRegsBut, SameStack, SameKeys, SameScreen, SameMem]

/-- No fatal error has the code 0, which stands for none (R26). -/
theorem FatalKind.code_ne_zero (k : FatalKind) : k.code ≠ 0#2 := by cases k <;> decide

/-- How a cycle ends that raises a fatal error: the record names `pc` and the word fetched there, and nothing else of the core's
state has changed (R77, R184). -/
theorem raiseFatal_endCycle {u t : State} {k : FatalKind} {w : Word} (hw : w = u.fetch16 u.pc)
    (ht : t = (u.raiseFatal k w).endCycle) :
    t.status = some .fatal ∧ t.halted = true ∧ t.faultPc = u.pc ∧ t.faultOpcode = u.fetch16 u.pc ∧ t.faultKind ≠ 0#2 ∧
      SameButFault u t ∧ t.beep = some false := by
  have hnot_done : (u.raiseFatal k w).status ≠ some .done := by simp
  obtain ⟨⟨hsame, _⟩, hbeep⟩ := sameCore_endCycle hnot_done
  subst ht
  exact ⟨by simp, by simp, by simp, by simp [hw], by simpa using k.code_ne_zero, hsame, hbeep⟩

/-- Settles O56, by `exec_next`. -/
theorem noInstructionStops : Obligations.NoInstructionStops := exec_next

/-- Settles O14, over everything a cycle can do and, where it executes an instruction, the three ways an execution ends. -/
theorem everyCycleEndsInOneOfThreeWays : Obligations.EveryCycleEndsInOneOfThreeWays := by
  intro s u hu
  obtain ⟨t, hcycle⟩ := cycle_next u
  refine ⟨t, (step_of_aboutToCycle hu).trans hcycle, ?_⟩
  obtain ⟨hhalted, rfl⟩ | ⟨i, r, hrun, hfetch, hexec, rfl⟩ | ⟨w, hrun, hfetch, ht⟩ := cycle_cases hcycle
  · obtain ⟨hsame, hbeep⟩ := sameCore_endCycle (s := u.haltedCycle) (by simp [State.haltedCycle])
    exact .inr (.inr (.inr ⟨endCycle_status _, hhalted, hsame, hbeep⟩))
  · obtain ⟨hdone, hrecord, _⟩ | ⟨_, _, rfl⟩ | ⟨k, _, rfl⟩ := exec_cases hexec
    · exact .inl ⟨(endCycle_status r).trans hdone, hrun, by simpa [SameFaultRecord] using hrecord⟩
    · obtain ⟨hsame, hbeep⟩ := sameCore_endCycle (s := u.setStatus .needsKey) (by simp)
      exact .inr (.inl ⟨endCycle_status _, hrun, hsame, hbeep⟩)
    · obtain ⟨hstatus, hend⟩ := raiseFatal_endCycle (k := k) (encodeWord_of_decodeWord hfetch) rfl
      exact .inr (.inr (.inl ⟨hstatus, hrun, hend⟩))
  · obtain ⟨hstatus, hend⟩ := raiseFatal_endCycle (eq_of_decodeWord_unassigned hfetch) ht
    exact .inr (.inr (.inl ⟨hstatus, hrun, hend⟩))

/-- Settles O12: a running core's cycle is the execution, with the end of the cycle after it. -/
theorem stepRunsTheDecodedInstruction : Obligations.StepRunsTheDecodedInstruction := by
  intro s u i hu hrun hdecode
  rw [step_of_aboutToCycle hu, cycle_ok hrun hdecode]
  cases exec i u <;> rfl

end Sys2Proof.Machine
end

section
/-! Frames built up one write at a time, and the state after entry into the fatal state (spec/60_exceptions.md R184). -/

namespace Sys2Proof.Safety

open Sys2Proof.Machine

variable {xs : List Nibble} {ps : List Piece} {s t : State}

theorem ExecFrame.refl (xs : List Nibble) (ps : List Piece) (s : State) : ExecFrame xs ps s s := by
  simp [ExecFrame, FrameBut, SameRegsBut, SameStack, SameScreen, SameFaultRecord, SameKeys, SamePorts]

/-- A frame leaves `pc` and `status` open. -/
theorem ExecFrame.setPc (h : ExecFrame xs ps s t) (w : Word) : ExecFrame xs ps s (t.setPc w) := h

theorem ExecFrame.setStatus (h : ExecFrame xs ps s t) (r : Status) : ExecFrame xs ps s (t.setStatus r) := h

/-- A frame that lists the stack leaves `SP` and the entries open. -/
theorem ExecFrame.setSp (h : ExecFrame xs ps s t) (hps : .stack ∈ ps) (n : Fin 17) : ExecFrame xs ps s (t.setSp n) := by
  obtain ⟨⟨hregs, hindex, _, hrest⟩, hports⟩ := h
  exact ⟨⟨hregs, hindex, fun hstack => absurd hps hstack, hrest⟩, hports⟩

theorem ExecFrame.setEntry (h : ExecFrame xs ps s t) (hps : .stack ∈ ps) (k : Fin 16) (w : Word) :
    ExecFrame xs ps s (t.setEntry k w) := by
  obtain ⟨⟨hregs, hindex, _, hrest⟩, hports⟩ := h
  exact ⟨⟨hregs, hindex, fun hstack => absurd hps hstack, hrest⟩, hports⟩

/-- The end of a cycle touches no more of the core than the two timers (R195). -/
theorem frameBut_endCycle (s : State) : FrameBut [] [.delayTimer, .soundTimer] s s.endCycle := by
  by_cases h : s.status = some .done
  all_goals simp [endCycle_done, endCycle_not_done, h, FrameBut, SameRegsBut, SameStack, SameScreen, SameFaultRecord, SameKeys]

/-- What the one shared operation does, and that the ports stay (R184). -/
theorem raisedFatal_raiseFatal (s : State) (k : FatalKind) (w : Word) :
    RaisedFatal k.code w s (s.raiseFatal k w) ∧ SamePorts s (s.raiseFatal k w) := by
  simp [RaisedFatal, SameButFault, SameRegsBut, SameStack, SameKeys, SameScreen, SameMem, SamePorts]

end Sys2Proof.Safety
end

section
/-! O18 to O23: the jumps, the call and the return, and the jump to itself (spec/40_flow_control.md R100 to R104;
spec/70_reset_and_hazards.md R218). -/

namespace Sys2Proof

/-- An address format word is its opcode nibble with the address below it (R62). -/
theorem wordNNN_eq_or (op : Nibble) (nnn : Addr12) : wordNNN op nnn = wordNNN op 0x000#12 ||| nnn.zeroExtend 16 := by
  have hnnn := nnn.isLt
  apply BitVec.eq_of_toNat_eq
  rw [BitVec.toNat_or, wordNNN_toNat, wordNNN_toNat, BitVec.toNat_setWidth, Nat.mod_eq_of_lt (by omega), Nat.mul_comm]
  exact Nat.two_pow_add_eq_or_of_lt hnnn op.toNat

end Sys2Proof

namespace Sys2Proof.Machine

open Sys2Proof.Safety

/-! ## Targets of jumps, as numbers -/

@[simp] theorem addrOperand_toNat (nnn : Addr12) : (addrOperand nnn).toNat = nnn.toNat :=
  BitVec.toNat_setWidth_of_le (by decide)

@[simp] theorem byteOperand_toNat (b : Byte) : (byteOperand b).toNat = b.toNat := BitVec.toNat_setWidth_of_le (by decide)

/-- The target of BNNN never wraps (R104). -/
theorem addrOperand_add_byteOperand_toNat (nnn : Addr12) (b : Byte) :
    (addrOperand nnn + byteOperand b).toNat = nnn.toNat + b.toNat := by
  have := nnn.isLt; have := b.isLt
  rw [BitVec.toNat_add, addrOperand_toNat, byteOperand_toNat]
  omega

/-! ## The instructions with one outcome -/

theorem exec_sys (nnn : Addr12) (s : State) :
    exec (.sys nnn) s = .next (s.raiseFatal .unsupportedOpcode (encodeWord (.sys nnn))) := rfl

theorem exec_jp (nnn : Addr12) (s : State) : exec (.jp nnn) s = .next ((s.setPc (addrOperand nnn)).setStatus .done) := rfl

theorem exec_jpV0 (nnn : Addr12) (s : State) :
    exec (.jpV0 nnn) s = .next ((s.setPc (addrOperand nnn + byteOperand (s.getV 0x0))).setStatus .done) := rfl

/-! ## The jump to itself -/

/-- `zext_16(NNN)` of an address below 0x1000 is that address. -/
theorem addrOperand_fieldNNN {a : Word} (h : a.toNat ≤ 0xFFF) : addrOperand (fieldNNN a) = a := by
  apply BitVec.eq_of_toNat_eq
  rw [addrOperand_toNat, fieldNNN_toNat]
  omega

/-- A spinning core fetches the jump to its own address (R218). -/
theorem fetchDecode_of_spinning {u : State} (h : Spinning u) : u.fetchDecode = .ok (.jp (fieldNNN u.pc)) := by
  obtain ⟨_, hpc, hfetch⟩ := h
  have hword : 0x1000#16 ||| u.pc = encodeWord (.jp (fieldNNN u.pc)) :=
    calc 0x1000#16 ||| u.pc = 0x1000#16 ||| addrOperand (fieldNNN u.pc) := by rw [addrOperand_fieldNNN hpc]
      _ = wordNNN 0x1 (fieldNNN u.pc) := (wordNNN_eq_or 0x1 _).symm
  rw [fetchDecode_eq, hfetch, hword]
  exact decodeWord_encodeWord rfl

/-- So its cycle completes and does nothing but end (R102). -/
theorem cycle_of_spinning {u : State} (h : Spinning u) : u.cycle = .next (u.setStatus .done).endCycle := by
  have hfetch := fetchDecode_of_spinning h
  obtain ⟨hrun, hpc, _⟩ := h
  rw [cycle_ok hrun hfetch, exec_jp, addrOperand_fieldNNN hpc]
  rfl

/-- Spinning rests on the latch, `pc` and memory alone. -/
theorem spinning_congr {s t : State} (hhalted : t.halted = s.halted) (hpc : t.pc = s.pc) (hmem : SameMem s t)
    (hs : Spinning s) : Spinning t := by
  have hfetch : t.fetch16 t.pc = s.fetch16 s.pc := by simp only [State.fetch16, hpc, hmem _]
  unfold Spinning Running at *
  rwa [hhalted, hfetch, hpc]

/-! ## The obligations -/

/-- Settles O18: the cycle is `cycle_of_spinning`, and its end changes nothing that spinning rests on. -/
theorem spinningGoesOnForever : Obligations.SpinningGoesOnForever := by
  intro s u hu hspin
  have hmem : SameMem u (u.setStatus .done).endCycle := endCycle_memRead _
  exact ⟨_, (step_of_aboutToCycle hu).trans (cycle_of_spinning hspin), endCycle_status _,
    spinning_congr (endCycle_halted _) (endCycle_pc _) hmem hspin, endCycle_pc _, frameBut_endCycle (u.setStatus .done), hmem⟩

/-- Settles O19, by what entry into the fatal state does; the word of 0NNN is NNN itself. -/
theorem sysIsAlwaysFatal : Obligations.SysIsAlwaysFatal := by
  intro nnn s
  have hword : encodeWord (.sys nnn) = nnn.zeroExtend 16 := (wordNNN_eq_or 0x0 nnn).trans BitVec.zero_or
  rw [← hword]
  exact ⟨_, exec_sys nnn s, raisedFatal_raiseFatal s .unsupportedOpcode _⟩

/-- Settles O20, by the two equations of 00EE. -/
theorem retReturnsOrUnderflows : Obligations.RetReturnsOrUnderflows := by
  intro s
  constructor
  · intro k hk
    have hsp : s.sp.val - 1 = k.val := by omega
    refine ⟨_, exec_ret_pos (by omega), rfl, hsp, by simp [hsp], fun _ => rfl, ?_, fun _ => rfl⟩
    exact (((ExecFrame.refl _ _ s).setSp (by decide) _).setPc _).setStatus _
  · intro hempty
    exact ⟨_, exec_ret_empty hempty, raisedFatal_raiseFatal s .stackUnderflow _⟩

/-- Settles O21, by the two equations of 2NNN. -/
theorem callPushesOrOverflows : Obligations.CallPushesOrOverflows := by
  intro nnn s
  constructor
  · intro k hk
    have hlt : s.sp.val < 16 := by omega
    obtain rfl : k = ⟨s.sp.val, hlt⟩ := Fin.ext hk.symm
    have hentry (j : Fin 16) := State.stack_setEntry s ⟨s.sp.val, hlt⟩ j s.pc
    refine ⟨_, exec_call_lt nnn hlt, rfl, rfl, addrOperand_toNat nnn, (hentry _).trans (if_pos rfl),
      fun j hj => (hentry j).trans (if_neg hj), ?_, fun _ => rfl⟩
    exact ((((ExecFrame.refl _ _ s).setEntry (by decide) _ _).setSp (by decide) _).setPc _).setStatus _
  · intro hfull
    have hword : encodeWord (.call nnn) = 0x2000#16 ||| nnn.zeroExtend 16 := wordNNN_eq_or 0x2 nnn
    rw [← hword]
    exact ⟨_, exec_call_full nnn hfull, raisedFatal_raiseFatal s .stackOverflow _⟩

/-- Settles O22: both jumps write `pc` alone. -/
theorem jumpsSetThePc : Obligations.JumpsSetThePc := by
  intro nnn s
  have hframe (w : Word) : ExecFrame [] [] s ((s.setPc w).setStatus .done) := ((ExecFrame.refl _ _ s).setPc w).setStatus _
  exact ⟨⟨_, exec_jp nnn s, rfl, addrOperand_toNat nnn, hframe _, fun _ => rfl⟩,
    ⟨_, exec_jpV0 nnn s, rfl, addrOperand_add_byteOperand_toNat nnn _, hframe _, fun _ => rfl⟩⟩

/-- Settles O23: the call pushes its own address, which is the entry the return takes, and the frames of the two compose. -/
theorem callThenReturnResumesAfterTheCall : Obligations.CallThenReturnResumesAfterTheCall := by
  intro nnn s hlt
  have hentry (j : Fin 16) := State.stack_setEntry s ⟨s.sp.val, hlt⟩ j s.pc
  refine ⟨_, _, exec_call_lt nnn hlt, exec_ret_pos (Nat.succ_pos _), ?_, rfl, ?_, ?_, fun _ => rfl⟩
  · exact congrArg (· + 2) ((hentry _).trans (if_pos rfl))
  · exact fun j hj => (hentry j).trans (if_neg fun e => by simp [e] at hj)
  · have hcall := ((((ExecFrame.refl [] [.stack] s).setEntry (by decide) ⟨s.sp.val, hlt⟩ s.pc).setSp (by decide)
      ⟨s.sp.val + 1, by omega⟩).setPc (addrOperand nnn)).setStatus .done
    exact ((hcall.setSp (by decide) _).setPc _).setStatus _

end Sys2Proof.Machine
end

section
/-! O25: the conditional skips on registers (spec/41_skips.md R110 to R114). -/

namespace Sys2Proof.Machine

open Sys2Proof.Safety

/-! ## The skip convention -/

/-- The skip convention, under a proposition that says when the tested bit is set (R114). -/
theorem skipIf_pc_of_iff {c : Bool} {P : Prop} [Decidable P] (hc : c = true ↔ P) (s : State) :
    (s.skipIf c).pc = s.pc + if P then 4 else 2 := by
  rw [skipIf_pc]
  by_cases h : P
  · rw [if_pos (hc.mpr h), if_pos h]
  · rw [if_neg (mt hc.mp h), if_neg h]

theorem skipIf_pc_toNat {c : Bool} {P : Prop} [Decidable P] (hc : c = true ↔ P) (s : State) :
    (s.skipIf c).pc.toNat = (s.pc.toNat + if P then 4 else 2) % 65536 := by
  rw [skipIf_pc_of_iff hc, BitVec.toNat_add, apply_ite BitVec.toNat]
  rfl

/-- A skip that completes leaves everything but `pc` and the status as it was (R114). -/
theorem execFrame_skipIf (s : State) (c : Bool) : ExecFrame [] [] s ((s.skipIf c).setStatus .done) :=
  ((ExecFrame.refl [] [] s).setPc _).setStatus _

/-! ## The comparisons, on unsigned 8-bit values -/

theorem byte_beq_iff_toNat_eq (a b : Byte) : (a == b) = true ↔ a.toNat = b.toNat := beq_iff_eq.trans BitVec.toNat_inj.symm

theorem byte_bne_iff_toNat_ne (a b : Byte) : (a != b) = true ↔ a.toNat ≠ b.toNat := bne_iff_ne.trans BitVec.toNat_ne_iff_ne.symm

/-! ## The four instructions -/

theorem exec_seImm (x : Nibble) (kk : Byte) (s : State) :
    exec (.seImm x kk) s = .next ((s.skipIf (s.getV x == kk)).setStatus .done) := rfl

theorem exec_sneImm (x : Nibble) (kk : Byte) (s : State) :
    exec (.sneImm x kk) s = .next ((s.skipIf (s.getV x != kk)).setStatus .done) := rfl

theorem exec_seReg (x y : Nibble) (s : State) :
    exec (.seReg x y) s = .next ((s.skipIf (s.getV x == s.getV y)).setStatus .done) := rfl

theorem exec_sneReg (x y : Nibble) (s : State) :
    exec (.sneReg x y) s = .next ((s.skipIf (s.getV x != s.getV y)).setStatus .done) := rfl

/-- Settles O25: each instruction is one skip; its frame is the skip's, and its `pc` follows the comparison of the two values. -/
theorem registerSkipsAdvanceByFourOrTwo : Obligations.RegisterSkipsAdvanceByFourOrTwo := by
  intro x y kk s
  refine ⟨⟨_, exec_seImm x kk s, rfl, execFrame_skipIf s _, fun _ => rfl, ?_⟩,
    ⟨_, exec_sneImm x kk s, rfl, execFrame_skipIf s _, fun _ => rfl, ?_⟩,
    ⟨_, exec_seReg x y s, rfl, execFrame_skipIf s _, fun _ => rfl, ?_⟩,
    ⟨_, exec_sneReg x y s, rfl, execFrame_skipIf s _, fun _ => rfl, ?_⟩⟩
  · exact skipIf_pc_toNat (byte_beq_iff_toNat_eq _ _) s
  · exact skipIf_pc_toNat (byte_bne_iff_toNat_ne _ _) s
  · exact skipIf_pc_toNat (byte_beq_iff_toNat_eq _ _) s
  · exact skipIf_pc_toNat (byte_bne_iff_toNat_ne _ _) s

end Sys2Proof.Machine
end

section
/-! O27 to O32: the register instructions (spec/42_register_alu.md R120 to R131). Each of them ends in one of two shared
operations, `State.writeResult` or `State.writeFlagResult`: what the operation does is said once, and an instruction adds what its
result and its flag are. -/

namespace Sys2Proof.Safety

open Sys2Proof.Machine

variable {xs : List Nibble} {ps : List Piece} {s t : State}

/-- A frame that lists a register leaves its value open. -/
theorem ExecFrame.setV (h : ExecFrame xs ps s t) {x : Nibble} (hx : x ∈ xs) (b : Byte) :
    ExecFrame xs ps s (t.setV x b) := by
  obtain ⟨⟨hregs, hrest⟩, hports⟩ := h
  refine ⟨⟨fun r hr => ?_, hrest⟩, hports⟩
  have hne : r ≠ x := fun e => hr (e ▸ hx)
  rw [State.getV_setV_other t b hne, hregs r hr]

theorem ExecFrame.setFlagThenV (h : ExecFrame xs ps s t) (hvf : vf ∈ xs) {x : Nibble} (hx : x ∈ xs)
    (c : Bool) (b : Byte) : ExecFrame xs ps s (t.setFlagThenV c x b) :=
  (h.setV hvf (flagByte c)).setV hx b

end Sys2Proof.Safety

namespace Sys2Proof.Machine

open Sys2Proof.Safety

/-! ## The two shared operations -/

/-- An instruction that writes one register and no flag (R75). -/
theorem writeResult_completes (s : State) (x : Nibble) (r : Byte) :
    ∃ t, s.writeResult x r = .next t ∧ t.status = some .done ∧ t.pc = s.pc + 2 ∧ t.getV x = r ∧
      ExecFrame [x] [] s t ∧ SameMem s t := by
  have hframe : ExecFrame [x] [] s (s.setV x r) := (ExecFrame.refl _ _ s).setV (List.mem_singleton_self x) r
  exact ⟨_, rfl, rfl, rfl, State.getV_setV_self s x r, (hframe.setPc _).setStatus _, fun _ => rfl⟩

/-- The same, for a result given bit by bit. -/
theorem writeResult_bits (s : State) (x : Nibble) {r : Byte} {Q : Nat → Prop} (hr : ∀ b, r.getLsbD b = true ↔ Q b) :
    ∃ t, s.writeResult x r = .next t ∧ t.status = some .done ∧ t.pc = s.pc + 2 ∧ ExecFrame [x] [] s t ∧ SameMem s t ∧
      ∀ b, b < 8 → ((t.getV x).getLsbD b = true ↔ Q b) := by
  obtain ⟨t, hexec, hdone, hpc, hx, hframe, hmem⟩ := writeResult_completes s x r
  exact ⟨t, hexec, hdone, hpc, hframe, hmem, fun b _ => hx ▸ hr b⟩

/-- An instruction that writes a flag and a result, given as numbers: the result wins where X = 0xF (R75). -/
theorem writeFlagResult_completes (s : State) (x : Nibble) {c : Bool} {r : Byte} {m n : Nat} (hr : r.toNat = m)
    (hc : (flagByte c).toNat = n) :
    ∃ t, s.writeFlagResult c x r = .next t ∧ t.status = some .done ∧ t.pc = s.pc + 2 ∧ ExecFrame [x, vf] [] s t ∧
      SameMem s t ∧ (t.getV x).toNat = m ∧ (x ≠ vf → (t.getV vf).toNat = n) := by
  have hget (q : Nibble) := State.getV_setFlagThenV s c x q r
  have hframe : ExecFrame [x, vf] [] s (s.setFlagThenV c x r) := (ExecFrame.refl _ _ s).setFlagThenV (by simp) (by simp) c r
  refine ⟨_, rfl, rfl, rfl, (hframe.setPc _).setStatus _, fun _ => rfl, ?_, fun hx => ?_⟩
  · exact hr ▸ congrArg BitVec.toNat ((hget x).trans (if_pos rfl))
  · exact hc ▸ congrArg BitVec.toNat ((hget vf).trans ((if_neg hx.symm).trans (if_pos rfl)))

/-! ## Flags and results, as numbers -/

theorem flagByte_toNat (c : Bool) : (flagByte c).toNat = c.toNat := by cases c <;> rfl

/-- The flag of a comparison (R126, R127, R129). -/
theorem flagByte_decide_toNat (P : Prop) [Decidable P] : (flagByte (decide P)).toNat = if P then 1 else 0 := by
  by_cases h : P <;> simp [flagByte, h]

/-- The flag of a bit shifted out (R128, R130). -/
theorem flagByte_getLsbD_toNat (b : Byte) (k : Nat) : (flagByte (b.getLsbD k)).toNat = b.toNat / 2 ^ k % 2 :=
  (flagByte_toNat _).trans (Nat.toNat_testBit b.toNat k)

/-- A difference modulo 256 (R127, R129). -/
theorem byte_sub_toNat (a b : Byte) : (a - b).toNat = (a.toNat + 256 - b.toNat) % 256 := by
  have := b.isLt
  rw [BitVec.toNat_sub]
  omega

/-- Halving rounds down (R128). -/
theorem byte_shr_one_toNat (b : Byte) : (b >>> 1).toNat = b.toNat / 2 := by
  rw [BitVec.toNat_ushiftRight, Nat.shiftRight_one]

/-- Doubling is modulo 256 (R130). -/
theorem byte_shl_one_toNat (b : Byte) : (b <<< 1).toNat = 2 * b.toNat % 256 := by
  rw [BitVec.toNat_shiftLeft, Nat.shiftLeft_eq, Nat.mul_comm]

/-! ## The obligations -/

/-- Settles O27: each of the three is one `State.writeResult`. -/
theorem loadsAndAddImmediateWriteOnlyVx : Obligations.LoadsAndAddImmediateWriteOnlyVx := by
  intro x y kk s
  refine ⟨writeResult_completes s x kk, ?_, writeResult_completes s x (s.getV y)⟩
  obtain ⟨t, hexec, hdone, hpc, hx, hframe, hmem⟩ := writeResult_completes s x (s.getV x + kk)
  exact ⟨t, hexec, hdone, hpc, hx ▸ BitVec.toNat_add (s.getV x) kk, hframe, hmem⟩

/-- Settles O28: each result bit by bit. -/
theorem logicIsBitwise : Obligations.LogicIsBitwise := by
  intro x y s
  refine ⟨writeResult_bits s x fun b => ?or, writeResult_bits s x fun b => ?and, writeResult_bits s x fun b => ?xor⟩
  case or => rw [BitVec.getLsbD_or, Bool.or_eq_true]
  case and => rw [BitVec.getLsbD_and, Bool.and_eq_true]
  case xor => rw [BitVec.getLsbD_xor, ← Bool.eq_iff_iff, bne_iff_ne]

/-- Settles O29: the sum modulo 256, with the carry as the flag. -/
theorem addSetsTheCarry : Obligations.AddSetsTheCarry :=
  fun x y s => writeFlagResult_completes s x (BitVec.toNat_add (s.getV x) (s.getV y)) (flagByte_decide_toNat _)

/-- Settles O30: one difference with its comparison as the flag, one way and the other. -/
theorem subtractionsSetNoBorrow : Obligations.SubtractionsSetNoBorrow :=
  fun x y s =>
    ⟨writeFlagResult_completes s x (byte_sub_toNat (s.getV x) (s.getV y)) (flagByte_decide_toNat _),
      writeFlagResult_completes s x (byte_sub_toNat (s.getV y) (s.getV x)) (flagByte_decide_toNat _)⟩

/-- Settles O31: bit 0 is the remainder by 2, and bit 7 is the quotient by 128, since a byte is below 256. -/
theorem shiftsByOneSetTheBitShiftedOut : Obligations.ShiftsByOneSetTheBitShiftedOut := by
  intro x y s
  have hlow := flagByte_getLsbD_toNat (s.getV x) 0
  have hhigh := flagByte_getLsbD_toNat (s.getV x) 7
  have hlt := (s.getV x).isLt
  exact ⟨writeFlagResult_completes s x (byte_shr_one_toNat _) (hlow.trans (by omega)),
    writeFlagResult_completes s x (byte_shl_one_toNat _) (hhigh.trans (by omega))⟩

/-- Settles O32: `rand_byte` stands in the state, so every random byte is covered; no bit lies in both KK and its complement. -/
theorem randomByteUnderMask : Obligations.RandomByteUnderMask := by
  intro x kk s
  obtain ⟨t, hexec, hdone, hpc, hx, hframe, hmem⟩ := writeResult_completes s x (s.randByte &&& kk)
  refine ⟨t, hexec, hdone, hpc, hframe, hmem, hx, ?_⟩
  rw [hx, BitVec.and_assoc, BitVec.and_not_self]
  exact BitVec.and_zero

end Sys2Proof.Machine
end

section
/-! O33 to O38: the index register and memory instructions, and the registers an instruction writes (spec/43_index_memory.md R140 to
R145; spec/10_state.md R11). First the frame of a write to `I` and of a block, then what a stored and a loaded block hold. -/

namespace Sys2Proof.Safety

open Sys2Proof.Machine

variable {xs : List Nibble} {ps : List Piece} {s t : State}

/-- A frame that lists the index register leaves its value open. -/
theorem ExecFrame.setI (h : ExecFrame xs ps s t) (hps : .index ∈ ps) (w : Word) : ExecFrame xs ps s (t.setI w) := by
  obtain ⟨⟨hregs, _, hrest⟩, hports⟩ := h
  exact ⟨⟨hregs, fun hindex => absurd hps hindex, hrest⟩, hports⟩

/-- A frame leaves memory open. -/
theorem ExecFrame.writeBytes (h : ExecFrame xs ps s t) (a : Nat) (bs : List Byte) : ExecFrame xs ps s (t.writeBytes a bs) := by
  induction bs generalizing t a with
  | nil => exact h
  | cons b bs ih =>
    have hb : ExecFrame xs ps s (t.memWrite a b) := h
    exact ih hb (a + 1)

/-- A frame that lists each register of a block leaves the block open. -/
theorem ExecFrame.writeRegs (h : ExecFrame xs ps s t) {k : Nat} {bs : List Byte}
    (hxs : ∀ j, j < k + bs.length → BitVec.ofNat 4 j ∈ xs) : ExecFrame xs ps s (t.writeRegs k bs) := by
  induction bs generalizing t k with
  | nil => exact h
  | cons b bs ih =>
    have hlen : k + (b :: bs).length = k + 1 + bs.length := by rw [List.length_cons]; omega
    exact ih (h.setV (hxs k (by omega)) b) (hlen ▸ hxs)

end Sys2Proof.Safety

namespace Sys2Proof.Machine

open Sys2Proof.Safety

/-! ## Writes to `I` -/

/-- An instruction that writes `I` alone, its value given as a number (R140 to R142). -/
theorem setI_completes (s : State) {w : Word} {n : Nat} (hw : w.toNat = n) :
    ∃ t, (s.setI w).advance.complete = .next t ∧ t.status = some .done ∧ t.pc = s.pc + 2 ∧ ExecFrame [] [.index] s t ∧
      SameMem s t ∧ t.i.toNat = n := by
  have hframe : ExecFrame [] [.index] s (s.setI w) := (ExecFrame.refl _ _ s).setI (List.mem_singleton_self _) w
  exact ⟨_, rfl, rfl, rfl, (hframe.setPc _).setStatus _, fun _ => rfl, hw⟩

/-- A sum with `I` wraps at 16 bits (R141). -/
theorem add_byteOperand_toNat (w : Word) (b : Byte) : (w + byteOperand b).toNat = (w.toNat + b.toNat) % 65536 := by
  rw [BitVec.toNat_add, byteOperand_toNat]

/-- The offset of a glyph never wraps: it is at most 5 times 255 (R142). -/
theorem byteOperand_mul_five_toNat (b : Byte) : (byteOperand b * 5).toNat = 5 * b.toNat := by
  have hb := b.isLt
  have hfive : (5 : Word).toNat = 5 := rfl
  rw [BitVec.toNat_mul, byteOperand_toNat, hfive]
  omega

/-- `I` after a block, as a number (R144, R145). -/
theorem indexAfterBlock_toNat (s : State) (x : Nibble) :
    (s.indexAfterBlock x).toNat = (s.i.toNat + x.toNat + 1) % 65536 := by
  rw [State.indexAfterBlock, BitVec.toNat_add, BitVec.toNat_ofNat, Nat.add_mod_mod]
  rfl

/-! ## Blocks -/

/-- Registers in a block are those up to `V[X]`. -/
theorem lt_blockLength_iff {x : Nibble} {k : Nat} : k < blockLength x ↔ k ≤ x.toNat := Nat.lt_succ_iff

theorem blockLength_le (x : Nibble) : blockLength x ≤ 16 := x.isLt

/-- A block of registers stored on canonical memory reads back, wherever it wraps (R144). -/
theorem memRead_writeBytes_readRegs {s : State} (hs : Memory.wf s.font s.mem = true) (a : Nat) {x r : Nibble}
    (hr : r.toNat ≤ x.toNat) : (s.writeBytes a (s.readRegs (blockLength x))).memRead (a + r.toNat) = s.getV r := by
  have hlen : (s.readRegs (blockLength x)).length ≤ Config.memSize := by
    rw [readRegs_length]
    exact (blockLength_le x).trans (by decide)
  have hlt : r.toNat < (s.readRegs (blockLength x)).length := by
    rwa [readRegs_length, lt_blockLength_iff]
  rw [State.memRead_writeBytes_inside hs a _ hlen _ hlt, readRegs_getElem, BitVec.ofNat_toNat, BitVec.setWidth_eq]

/-- A block of bytes loaded into the registers: those up to `V[X]` hold their byte, those above are as they were (R145). -/
theorem getV_writeRegs_readBytes (s : State) (a : Nat) (x r : Nibble) :
    (s.writeRegs 0 (s.readBytes a (blockLength x))).getV r =
      if r.toNat ≤ x.toNat then s.memRead (a + r.toNat) else s.getV r := by
  have hlen := blockLength_le x
  rw [State.getV_writeRegs s 0 _ (by rwa [readBytes_length, Nat.zero_add])]
  by_cases hr : r.toNat ≤ x.toNat
  · rw [dif_pos (by simpa [lt_blockLength_iff] using hr), if_pos hr, readBytes_getElem, Nat.sub_zero]
  · rw [dif_neg (by simpa [lt_blockLength_iff] using hr), if_neg hr]

/-! ## The decimal digits -/

@[simp] theorem decimalDigits_length (b : Byte) : (decimalDigits b).length = 3 := rfl

/-- Hundreds, tens and ones, as numbers (R143). -/
theorem decimalDigits_toNat (b : Byte) :
    (decimalDigits b)[0].toNat = b.toNat / 100 ∧ (decimalDigits b)[1].toNat = b.toNat / 10 % 10 ∧
      (decimalDigits b)[2].toNat = b.toNat % 10 :=
  ⟨BitVec.toNat_udiv, BitVec.toNat_umod.trans (congrArg (· % 10) BitVec.toNat_udiv), BitVec.toNat_umod⟩

/-! ## The stores and the block load -/

theorem exec_storeBcd (x : Nibble) (s : State) :
    exec (.storeBcd x) s = .next ((s.writeBytes s.i.toNat (decimalDigits (s.getV x))).advance.setStatus .done) := rfl

theorem exec_storeRegs (x : Nibble) (s : State) :
    exec (.storeRegs x) s = .next (((s.writeBytes s.i.toNat (s.readRegs (blockLength x))).setI
      (s.indexAfterBlock x)).advance.setStatus .done) := rfl

theorem exec_loadRegs (x : Nibble) (s : State) :
    exec (.loadRegs x) s = .next (((s.writeRegs 0 (s.readBytes s.i.toNat (blockLength x))).setI
      (s.indexAfterBlock x)).advance.setStatus .done) := rfl

/-! ## The registers an instruction writes -/

/-- Of the registers, a flag and a result touch `VF` and `V[X]` alone (R75). -/
theorem getV_setFlagThenV_other (s : State) (c : Bool) {x r : Nibble} (b : Byte) (h : ¬(r = x ∨ r = vf)) :
    (s.setFlagThenV c x b).getV r = s.getV r := by
  obtain ⟨hx, hvf⟩ := not_or.mp h
  rw [State.getV_setFlagThenV, if_neg hx, if_neg hvf]

/-- Every register that an instruction does not write keeps its value (R11, R145). -/
theorem exec_getV {i : Instr} {s t : State} (h : exec i s = .next t) {r : Nibble} (hr : ¬writesReg i r) :
    t.getV r = s.getV r := by
  cases i
  case ret => obtain ⟨_, _, rfl⟩ | rfl := exec_ret_cases h <;> rfl
  case call nnn => obtain ⟨_, _, rfl⟩ | rfl := exec_call_cases h <;> rfl
  case ldKey x =>
    obtain rfl | ⟨c, rfl⟩ := exec_ldKey_cases h
    · rfl
    · exact State.getV_setV_other s _ hr
  case ldImm | addImm | ldReg | orReg | andReg | xorReg | rnd | ldFromDt => cases h; exact State.getV_setV_other s _ hr
  case addReg | subReg | shr | subnReg | shl => cases h; exact getV_setFlagThenV_other s _ _ hr
  case drw x y n =>
    cases h
    exact (State.getV_setV_other _ _ hr).trans (drawSprite_getV s _ _ _ r)
  case loadRegs x =>
    cases h
    exact (getV_writeRegs_readBytes s s.i.toNat x r).trans (if_neg hr)
  case storeBcd | storeRegs => cases h; exact writeBytes_getV s _ _ r
  all_goals cases h; rfl

/-! ## The obligations -/

/-- Settles O33, by `exec_getV`. -/
theorem onlyTheNamedRegistersChange : Obligations.OnlyTheNamedRegistersChange := fun _ _ _ h _ hr => exec_getV h hr

/-- Settles O34: each of the three is one write to `I`. -/
theorem indexLoads : Obligations.IndexLoads :=
  fun x nnn s =>
    ⟨setI_completes s (addrOperand_toNat nnn), setI_completes s (add_byteOperand_toNat s.i (s.getV x)),
      setI_completes s (byteOperand_mul_five_toNat (s.getV x))⟩

/-- Settles O35: the three bytes are read back from the stored block, each as a digit. -/
theorem bcdStoresTheThreeDigits : Obligations.BcdStoresTheThreeDigits := by
  intro x s hs
  have hlen : (decimalDigits (s.getV x)).length ≤ Config.memSize := by
    rw [decimalDigits_length]
    decide
  have hbyte (k : Nat) (hk : k < 3) := State.memRead_writeBytes_inside hs s.i.toNat (decimalDigits (s.getV x)) hlen k hk
  obtain ⟨hhundreds, htens, hones⟩ := decimalDigits_toNat (s.getV x)
  refine ⟨_, exec_storeBcd x s, rfl, ?_, ?_, ?_, ?_, ?_, sameMemBut_writeBytes s _ (decimalDigits (s.getV x))⟩
  · rw [setStatus_pc, advance_pc, writeBytes_pc]
  · exact (((ExecFrame.refl _ _ s).writeBytes _ _).setPc _).setStatus _
  · exact (congrArg BitVec.toNat (hbyte 0 (by decide))).trans hhundreds
  · exact (congrArg BitVec.toNat (hbyte 1 (by decide))).trans htens
  · exact (congrArg BitVec.toNat (hbyte 2 (by decide))).trans hones

/-- Settles O36: the block reads back, and nothing outside it changes. -/
theorem blockStoreCopiesTheRegisters : Obligations.BlockStoreCopiesTheRegisters := by
  intro x s hs
  refine ⟨_, exec_storeRegs x s, rfl, ?_, ?_, fun r hr => memRead_writeBytes_readRegs hs s.i.toNat hr, ?_,
    indexAfterBlock_toNat s x⟩
  · rw [setStatus_pc, advance_pc, setI_pc, writeBytes_pc]
  · exact ((((ExecFrame.refl _ _ s).writeBytes _ _).setI (List.mem_singleton_self _) _).setPc _).setStatus _
  · have hmem := sameMemBut_writeBytes s s.i.toNat (s.readRegs (blockLength x))
    rwa [readRegs_length] at hmem

/-- Settles O37: the registers of the block by `getV_writeRegs_readBytes`; a frame that lists them leaves them open. -/
theorem blockLoadCopiesTheMemory : Obligations.BlockLoadCopiesTheMemory := by
  intro x s
  refine ⟨_, exec_loadRegs x s, rfl, ?_, writeRegs_memRead s 0 _, getV_writeRegs_readBytes s s.i.toNat x, ?_,
    indexAfterBlock_toNat s x⟩
  · rw [setStatus_pc, advance_pc, setI_pc, writeRegs_pc]
  · intro xs hxs
    have hblock (j : Nat) (hj : j < 0 + (s.readBytes s.i.toNat (blockLength x)).length) : BitVec.ofNat 4 j ∈ xs := by
      rw [Nat.zero_add, readBytes_length, lt_blockLength_iff] at hj
      have hle : (BitVec.ofNat 4 j).toNat ≤ j := BitVec.toNat_ofNat j 4 ▸ Nat.mod_le _ _
      exact hxs _ (hle.trans hj)
    exact ((((ExecFrame.refl _ _ s).writeRegs hblock).setI (List.mem_singleton_self _) _).setPc _).setStatus _

/-- Settles O38, by O36 and O37: the load reads the bytes that the store left, and both advance `I` from the same value. -/
theorem blockStoreThenLoadRestoresTheRegisters : Obligations.BlockStoreThenLoadRestoresTheRegisters := by
  intro x v s hs
  obtain ⟨t, hstore, _, _, _, hstored, _, htIndex⟩ := blockStoreCopiesTheRegisters x s hs
  obtain ⟨u, hload, _, _, _, hloaded, _, huIndex⟩ := blockLoadCopiesTheMemory x { t with i := s.i, v := v }
  refine ⟨t, u, hstore, hload, BitVec.eq_of_toNat_eq (huIndex.trans htIndex.symm), fun r hr => ?_⟩
  calc u.getV r = t.memRead (s.i.toNat + r.toNat) := (hloaded r).trans (if_pos hr)
    _ = s.getV r := hstored r hr

end Sys2Proof.Machine
end

section
/-! O40 to O43: the display instructions (spec/44_display.md R150 to R153). First the frame of a write to the framebuffer, then the
outcome of one draw, in terms of `Hits`, the formula of R151. -/

namespace Sys2Proof.Safety

open Sys2Proof.Machine

variable {xs : List Nibble} {ps : List Piece} {s t : State}

/-- A frame that lists the screen leaves the framebuffer open. -/
theorem ExecFrame.withFb (h : ExecFrame xs ps s t) (hps : .screen ∈ ps) (fb : Vector (BitVec 64) 32) :
    ExecFrame xs ps s { t with fb := fb } := by
  obtain ⟨⟨hregs, hindex, hstack, hdt, hst, _, hrest⟩, hports⟩ := h
  exact ⟨⟨hregs, hindex, hstack, hdt, hst, fun hscreen => absurd hps hscreen, hrest⟩, hports⟩

theorem ExecFrame.foldl_drawPixel {p : State × Bool} (h : ExecFrame xs ps s p.1) (hps : .screen ∈ ps) (ks : List Nat) :
    ExecFrame xs ps s (ks.foldl State.drawPixel p).1 := by
  induction ks generalizing p with
  | nil => exact h
  | cons k ks ih =>
    have hk : ExecFrame xs ps s (State.drawPixel p k).1 := h.withFb hps _
    exact ih hk

/-- A frame that lists the draw request leaves it open. -/
theorem ExecFrame.requestDraw (h : ExecFrame xs ps s t) (hps : .drawRequest ∈ ps) : ExecFrame xs ps s t.requestDraw := by
  obtain ⟨⟨hregs, hindex, hstack, hdt, hst, hscreen, _, hrest⟩, hports⟩ := h
  exact ⟨⟨hregs, hindex, hstack, hdt, hst, hscreen, fun hdraw => absurd hps hdraw, hrest⟩, hports⟩

/-- Where a sprite falls depends on `V[X]`, `V[Y]`, `I` and memory alone (R151). -/
theorem hits_congr {x y : Nibble} (n : Nibble) (hx : t.getV x = s.getV x) (hy : t.getV y = s.getV y) (hi : t.i = s.i)
    (hmem : SameMem s t) (k : Nat) : Hits x y n t k ↔ Hits x y n s k := by
  unfold Hits
  simp only [hx, hy, hi, hmem _]

end Sys2Proof.Safety

namespace Sys2Proof.Machine

open Sys2Proof.Safety

/-! ## One draw -/

/-- What the double loop of DXYN leaves: the state, and the collision flag of this draw alone (R151, R152). -/
def State.drawn (x y n : Nibble) (s : State) : State × Bool :=
  s.drawSprite (s.getV x) (s.getV y) (s.readBytes s.i.toNat n.toNat)

theorem exec_cls (s : State) : exec .cls s = .next (s.clearScreen.requestDraw.advance.setStatus .done) := rfl

theorem exec_drw (x y n : Nibble) (s : State) :
    exec (.drw x y n) s = .next
      (((s.drawn x y n).1.setV vf (flagByte (s.drawn x y n).2)).requestDraw.advance.setStatus .done) := rfl

/-- The pixels the loop visits are those of R151's formula. -/
theorem mem_spritePixels_iff_hits (x y n : Nibble) (s : State) (k : Nat) :
    k ∈ spritePixels (s.getV x) (s.getV y) 0 (s.readBytes s.i.toNat n.toNat) ↔ Hits x y n s k := by
  rw [mem_spritePixels]
  constructor
  · rintro ⟨r, hr, c, hc, hbit, hk⟩
    rw [readBytes_getElem] at hbit
    rw [readBytes_length] at hr
    exact ⟨r, c, hr, hc, hbit, Nat.zero_add r ▸ hk⟩
  · rintro ⟨r, c, hr, hc, hbit, hk⟩
    refine ⟨r, by rwa [readBytes_length], c, hc, ?_, (Nat.zero_add r).symm ▸ hk⟩
    rwa [readBytes_getElem]

/-- `N` is a nibble, so no sprite reaches the 32 rows after which pixels would repeat (R151). -/
theorem spriteRows_length_le (n : Nibble) (s : State) : (s.readBytes s.i.toNat n.toNat).length ≤ 31 := by
  have := n.isLt
  rw [readBytes_length]
  omega

theorem drawn_pixel_of_hits {x y n : Nibble} {s : State} {k : Nat} (hk : k < Config.pixels) (h : Hits x y n s k) :
    (s.drawn x y n).1.pixel k = !s.pixel k := by
  rw [State.drawn, drawSprite_pixel _ _ _ _ (spriteRows_length_le n s) k hk,
    decide_eq_true ((mem_spritePixels_iff_hits x y n s k).mpr h), Bool.xor_true]

theorem drawn_pixel_of_not_hits {x y n : Nibble} {s : State} {k : Nat} (hk : k < Config.pixels) (h : ¬Hits x y n s k) :
    (s.drawn x y n).1.pixel k = s.pixel k := by
  rw [State.drawn, drawSprite_pixel _ _ _ _ (spriteRows_length_le n s) k hk,
    decide_eq_false (mt (mem_spritePixels_iff_hits x y n s k).mp h), Bool.xor_false]

/-- The collision flag of a draw: was a pixel of the sprite set before it (R152). -/
theorem drawn_collision_iff (x y n : Nibble) (s : State) :
    (s.drawn x y n).2 = true ↔ ∃ k, k < Config.pixels ∧ Hits x y n s k ∧ s.pixel k = true := by
  rw [State.drawn, drawSprite_collision _ _ _ _ (spriteRows_length_le n s), List.any_eq_true]
  constructor
  · rintro ⟨k, hk, hset⟩
    exact ⟨k, spritePixels_lt hk, (mem_spritePixels_iff_hits x y n s k).mp hk, hset⟩
  · rintro ⟨k, _, hk, hset⟩
    exact ⟨k, (mem_spritePixels_iff_hits x y n s k).mpr hk, hset⟩

/-! ## The obligations -/

/-- Settles O40: the framebuffer and the draw request are all that 00E0 writes, and a frame that lists both leaves them open. -/
theorem clearScreenClearsEveryPixel : Obligations.ClearScreenClearsEveryPixel := by
  intro s
  have hframe : ExecFrame [] [.screen, .drawRequest] s s.clearScreen.requestDraw :=
    ((ExecFrame.refl _ _ s).withFb (by decide) _).requestDraw (by decide)
  exact ⟨_, exec_cls s, rfl, rfl, State.pixel_clearScreen s, rfl, (hframe.setPc _).setStatus _, fun _ => rfl⟩

/-- Settles O41: the pixels by `drawn_pixel_of_hits` and `drawn_pixel_of_not_hits`, `VF` by `drawn_collision_iff`; what the
instruction writes after the loop touches no pixel. -/
theorem drawTurnsExactlyTheSpritePixels : Obligations.DrawTurnsExactlyTheSpritePixels := by
  intro x y n s
  have hvf : ((s.drawn x y n).1.setV vf (flagByte (s.drawn x y n).2)).getV vf = flagByte (s.drawn x y n).2 :=
    State.getV_setV_self _ _ _
  have hloop : ExecFrame [vf] [.screen, .drawRequest] s (s.drawn x y n).1 :=
    ExecFrame.foldl_drawPixel (ExecFrame.refl _ _ s) (by decide) _
  have hframe := (hloop.setV (List.mem_singleton_self vf) (flagByte (s.drawn x y n).2)).requestDraw (by decide)
  refine ⟨_, exec_drw x y n s, rfl, ?pc, rfl, fun k hk => ⟨drawn_pixel_of_hits hk, drawn_pixel_of_not_hits hk⟩,
    ?collided, ?clear, (hframe.setPc _).setStatus _, drawSprite_memRead s _ _ _⟩
  case pc => exact congrArg (· + 2) (drawSprite_pc s _ _ _)
  case collided =>
    intro hset
    exact hvf.trans (congrArg flagByte ((drawn_collision_iff x y n s).mpr hset))
  case clear =>
    intro hclear
    have hnone : (s.drawn x y n).2 = false := by
      refine Bool.eq_false_iff.mpr fun hc => ?_
      obtain ⟨k, hk, hhit, hset⟩ := (drawn_collision_iff x y n s).mp hc
      exact Bool.false_ne_true ((hclear k hk hhit).symm.trans hset)
    exact hvf.trans (congrArg flagByte hnone)

/-- Settles O42: the flat index is a number below 2048 split at 64; that distinct bits fall apart is `pixelIndex_inj`. -/
theorem flatIndexGeometry : Obligations.FlatIndexGeometry := by
  intro vx vy r c hc hr
  refine ⟨?_, fun r' c' hc' hr' h => pixelIndex_inj vx vy (by omega) (by omega) hc hc' h⟩
  rw [pixelIndex, Config.pixels]
  omega

/-- Settles O43, by O41 twice: the first draw moves none of what `Hits` reads, so the second turns the same pixels back, and finds
set exactly those that were clear at the start. -/
theorem drawingTwiceRestoresTheScreen : Obligations.DrawingTwiceRestoresTheScreen := by
  intro x y n s hx hy
  obtain ⟨t, hfirst, _, _, _, htPixels, _, _, ⟨⟨htRegs, htIndex, _⟩, _⟩, htMem⟩ := drawTurnsExactlyTheSpritePixels x y n s
  obtain ⟨u, hsecond, _, _, _, huPixels, huCollided, huClear, _⟩ := drawTurnsExactlyTheSpritePixels x y n t
  have hhits (k : Nat) : Hits x y n t k ↔ Hits x y n s k :=
    hits_congr n (htRegs x (by simpa using hx)) (htRegs y (by simpa using hy)) (htIndex (by decide)) htMem k
  refine ⟨t, u, hfirst, hsecond, fun k hk => ?_, fun hvf => ?_, fun ⟨k, hk, hhit, hwasClear⟩ => ?_⟩
  · by_cases hhit : Hits x y n s k
    · rw [(huPixels k hk).1 ((hhits k).mpr hhit), (htPixels k hk).1 hhit, Bool.not_not]
    · rw [(huPixels k hk).2 (mt (hhits k).mp hhit), (htPixels k hk).2 hhit]
  · by_contra hnone
    have hclear (k : Nat) (hk : k < 2048) (hhit : Hits x y n t k) : t.pixel k = false := by
      have hset : s.pixel k = true := eq_true_of_ne_false fun h => hnone ⟨k, hk, (hhits k).mp hhit, h⟩
      rw [(htPixels k hk).1 ((hhits k).mp hhit), hset, Bool.not_true]
    exact absurd (hvf.symm.trans (huClear hclear)) (by decide)
  · refine huCollided ⟨k, hk, (hhits k).mpr hhit, ?_⟩
    rw [(htPixels k hk).1 hhit, hwasClear, Bool.not_false]

end Sys2Proof.Machine
end

section
/-! O17, O26 and O44: the keypad instructions, the two skips on a key's level and the wait for a press
(spec/45_keypad.md R160 to R163; spec/70_reset_and_hazards.md R218). -/

namespace Sys2Proof.Machine

open Sys2Proof.Safety

/-! ## The skips on a key -/

theorem exec_skp (x : Nibble) (s : State) : exec (.skp x) s = .next ((s.skipIf (s.keyOf x)).setStatus .done) := rfl

theorem exec_sknp (x : Nibble) (s : State) : exec (.sknp x) s = .next ((s.skipIf (!s.keyOf x)).setStatus .done) := rfl

/-- The key tested is the one that the low nibble of `V[X]` names (R160, D11). -/
theorem keyOf_eq {s : State} {x : Nibble} {k : Fin 16} (hk : (s.getV x).toNat % 16 = k.val) : s.keyOf x = s.key[k] := by
  simp only [State.keyOf, hk, Fin.getElem_fin]

/-- Settles O26: each instruction is one skip, the second on the complement of the flag the first tests. -/
theorem keySkipsTestTheNamedKey : Obligations.KeySkipsTestTheNamedKey := by
  intro x s k hk
  have hpressed : s.keyOf x = true ↔ s.key[k] = true := by rw [keyOf_eq hk]
  have hreleased : (!s.keyOf x) = true ↔ s.key[k] = false := by rw [keyOf_eq hk, Bool.not_eq_true']
  exact ⟨⟨_, exec_skp x s, rfl, execFrame_skipIf s _, fun _ => rfl, skipIf_pc_of_iff hpressed s⟩,
    ⟨_, exec_sknp x s, rfl, execFrame_skipIf s _, fun _ => rfl, skipIf_pc_of_iff hreleased s⟩⟩

/-! ## The wait for a press -/

/-- The status is an output, not the core's state (R38). -/
theorem sameCore_setStatus (s : State) (r : Status) : SameCore s (s.setStatus r) := by
  simp [SameCore, SameButFault, SameFaultRecord, SameRegsBut, SameStack, SameKeys, SameScreen, SameMem]

/-- Settles O44: without a press FX0A writes the status alone; with one it writes the code as its one result. -/
theorem keyWaitHoldsOrStoresTheCode : Obligations.KeyWaitHoldsOrStoresTheCode := by
  intro x s
  constructor
  · intro hnone
    exact ⟨_, exec_ldKey_none x hnone, rfl, sameCore_setStatus s .needsKey, by simp [SamePorts]⟩
  · intro c hpress
    have hcode : (c.zeroExtend 8 : Byte).toNat = c.toNat := BitVec.toNat_setWidth_of_le (by decide)
    obtain ⟨t, hresult, hdone, hpc, hx, hframe, hmem⟩ := writeResult_completes s x (c.zeroExtend 8)
    exact ⟨t, (exec_ldKey_some x hpress).trans hresult, hdone, hpc, hx ▸ hcode, hframe, hmem⟩

/-- What the decoder reads rests on `pc` and memory alone (R70). -/
theorem fetchDecode_congr {s t : State} (hpc : t.pc = s.pc) (hmem : SameMem s t) : t.fetchDecode = s.fetchDecode := by
  simp only [State.fetchDecode, hpc, hmem _]

/-- Waiting rests on the core's state and the press offered: the wait has no state of its own (R162). -/
theorem waiting_of_sameCore {s t : State} (hcore : SameCore s t) (hkey : t.keyPress = none) (hs : Waiting s) : Waiting t := by
  obtain ⟨⟨_, _, hpc, _, _, _, _, _, _, hmem⟩, hhalted, _⟩ := hcore
  obtain ⟨hrun, _, x, hfetch⟩ := hs
  exact ⟨hhalted.trans hrun, hkey, x, (fetchDecode_congr hpc hmem).trans hfetch⟩

/-- The cycle of a waiting core reports NEEDS_KEY and does nothing but end (R162, R218). -/
theorem cycle_of_waiting {u : State} (h : Waiting u) : u.cycle = .next (u.setStatus .needsKey).endCycle := by
  obtain ⟨hrun, hkey, x, hfetch⟩ := h
  rw [cycle_ok hrun hfetch, exec_ldKey_none x hkey]
  rfl

/-- Settles O17: the cycle is `cycle_of_waiting`, and its end, without a tick, keeps the core's state, on which the next wait
rests. -/
theorem waitingForAKeyChangesNothing : Obligations.WaitingForAKeyChangesNothing := by
  intro s u hu hwait
  have hcore : SameCore u (u.setStatus .needsKey).endCycle := (sameCore_endCycle (by simp)).1
  exact ⟨_, (step_of_aboutToCycle hu).trans (cycle_of_waiting hwait), endCycle_status _, hcore,
    fun hkey => waiting_of_sameCore hcore hkey hwait⟩

end Sys2Proof.Machine
end

section
/-! O45 and O46: the timer instructions, and how the sound timer runs down (spec/46_timer_instr.md R170 to R172;
spec/60_exceptions.md R195, R197). -/

namespace Sys2Proof.Safety

open Sys2Proof.Machine

variable {xs : List Nibble} {ps : List Piece} {s t : State}

/-- A frame that lists a timer leaves its value open. -/
theorem ExecFrame.setDt (h : ExecFrame xs ps s t) (hps : .delayTimer ∈ ps) (b : Byte) : ExecFrame xs ps s (t.setDt b) := by
  obtain ⟨⟨hregs, hindex, hstack, _, hrest⟩, hports⟩ := h
  exact ⟨⟨hregs, hindex, hstack, fun hdelay => absurd hps hdelay, hrest⟩, hports⟩

theorem ExecFrame.setSt (h : ExecFrame xs ps s t) (hps : .soundTimer ∈ ps) (b : Byte) : ExecFrame xs ps s (t.setSt b) := by
  obtain ⟨⟨hregs, hindex, hstack, hdelay, _, hrest⟩, hports⟩ := h
  exact ⟨⟨hregs, hindex, hstack, hdelay, fun hsound => absurd hps hsound, hrest⟩, hports⟩

end Sys2Proof.Safety

namespace Sys2Proof.Machine

open Sys2Proof.Safety

/-! ## The three instructions -/

theorem exec_ldFromDt (x : Nibble) (s : State) : exec (.ldFromDt x) s = s.writeResult x s.dt := rfl

theorem exec_ldToDt (x : Nibble) (s : State) :
    exec (.ldToDt x) s = .next ((s.setDt (s.getV x)).advance.setStatus .done) := rfl

theorem exec_ldToSt (x : Nibble) (s : State) :
    exec (.ldToSt x) s = .next ((s.setSt (s.getV x)).advance.setStatus .done) := rfl

/-! ## The timers at the end of a cycle, and after many ticks -/

@[simp] theorem endCycle_getV (s : State) (r : Nibble) : s.endCycle.getV r = s.getV r :=
  endCycle_read (State.getV · r) s rfl rfl

/-- The delay timer at the end of a completed cycle is one less, never negative (R195). -/
theorem endCycle_dt_toNat {s : State} (h : s.status = some .done) : s.endCycle.dt.toNat = s.dt.toNat - 1 := by
  rw [endCycle_done h, freshInputs_dt, tick_dt, tickByte_toNat]

/-- The sound timer falls by one with every tick and stays at 0 (R195, R196). -/
theorem iterate_tick_st_toNat (s : State) (n : Nat) : (State.tick^[n] s).st.toNat = s.st.toNat - n := by
  induction n with
  | zero => rfl
  | succ n ih => rw [Function.iterate_succ_apply', tick_st, tickByte_toNat, ih, Nat.sub_sub]

/-- A tick beeps when it finds the sound timer at 1 (R197). -/
theorem tick_beep_eq_decide (s : State) : s.tick.beep = some (decide (s.st.toNat = 1)) :=
  congrArg some (Bool.eq_iff_iff.mpr ((byte_beq_iff_toNat_eq _ _).trans decide_eq_true_iff.symm))

/-- The tick that follows n others is the one that beeps exactly when the sound timer started at n + 1 (R197). -/
theorem iterate_tick_beep (s : State) (n : Nat) :
    (State.tick^[n + 1] s).beep = some (decide (s.st.toNat = n + 1)) := by
  have hone : s.st.toNat - n = 1 ↔ s.st.toNat = n + 1 := by omega
  rw [Function.iterate_succ_apply', tick_beep_eq_decide, iterate_tick_st_toNat, decide_eq_decide.mpr hone]

/-! ## The obligations -/

/-- Settles O45: FX07 is one `State.writeResult` of the timer, FX15 a write of the timer alone; the tick comes after either. -/
theorem delayTimerInstructionsCopy : Obligations.DelayTimerInstructionsCopy := by
  intro x s
  constructor
  · obtain ⟨t, hresult, hdone, hpc, hx, hframe, hmem⟩ := writeResult_completes s x s.dt
    have hdt : t.dt = s.dt := by cases hresult; rfl
    exact ⟨t, (exec_ldFromDt x s).trans hresult, hdone, hpc, hx, hframe, hmem, (endCycle_getV t x).trans hx,
      hdt ▸ endCycle_dt_toNat hdone⟩
  · have hframe : ExecFrame [] [.delayTimer] s (s.setDt (s.getV x)) :=
      (ExecFrame.refl _ _ s).setDt (List.mem_singleton_self _) _
    exact ⟨_, exec_ldToDt x s, rfl, rfl, rfl, (hframe.setPc _).setStatus _, fun _ => rfl, endCycle_dt_toNat rfl⟩

/-- Settles O46: FX18 is a write of the timer alone, and the ticks after it run down the value it loaded. -/
theorem soundTimerLoadGivesOneBeep : Obligations.SoundTimerLoadGivesOneBeep := by
  intro x s
  have hframe : ExecFrame [] [.soundTimer] s (s.setSt (s.getV x)) :=
    (ExecFrame.refl _ _ s).setSt (List.mem_singleton_self _) _
  exact ⟨_, exec_ldToSt x s, rfl, rfl, rfl, (hframe.setPc _).setStatus _, fun _ => rfl, iterate_tick_beep _⟩

end Sys2Proof.Machine
end

section
/-! O13 and O47: the end of a cycle, and both timers after many ticks (spec/60_exceptions.md R195, R196). -/

namespace Sys2Proof.Machine

open Sys2Proof.Safety

@[simp] theorem endCycle_host (s : State) : s.endCycle.host = s.host := endCycle_read State.host s rfl rfl

/-- The sound timer at the end of a completed cycle is one less, never negative (R195). -/
theorem endCycle_st_toNat {s : State} (h : s.status = some .done) : s.endCycle.st.toNat = s.st.toNat - 1 := by
  rw [endCycle_done h, freshInputs_st, tick_st, tickByte_toNat]

/-- A completed cycle beeps when its tick finds the sound timer at 1 (R197). -/
theorem endCycle_beep_of_done {s : State} (h : s.status = some .done) :
    s.endCycle.beep = some (decide (s.st.toNat = 1)) := by
  rw [endCycle_done h, freshInputs_beep, tick_beep_eq_decide]

/-- The delay timer falls by one with every tick and stays at 0 (R195, R196). -/
theorem iterate_tick_dt_toNat (s : State) (n : Nat) : (State.tick^[n] s).dt.toNat = s.dt.toNat - n := by
  induction n with
  | zero => rfl
  | succ n ih => rw [Function.iterate_succ_apply', tick_dt, tickByte_toNat, ih, Nat.sub_sub]

/-- Settles O13: the timers and the beep of a completed cycle each by its lemma, its frame by `frameBut_endCycle`; a cycle without a
tick by `sameCore_endCycle`. -/
theorem tickOnlyAtTheEndOfACompletedCycle : Obligations.TickOnlyAtTheEndOfACompletedCycle := fun t =>
  ⟨fun hdone => ⟨endCycle_dt_toNat hdone, endCycle_st_toNat hdone, endCycle_beep_of_done hdone, frameBut_endCycle t,
    endCycle_memRead t, endCycle_pc t⟩, sameCore_endCycle, endCycle_status t, endCycle_host t⟩

/-- Settles O47, by the induction on the number of ticks that each timer has of its own. -/
theorem timersRunDownToZeroAndStay : Obligations.TimersRunDownToZeroAndStay :=
  fun s n => ⟨iterate_tick_dt_toNat s n, iterate_tick_st_toNat s n⟩

end Sys2Proof.Machine
end

section
/-! O15 and O16: where the three fatal errors are raised, and the halt that only reset ends (spec/60_exceptions.md R180 to R187). -/

namespace Sys2Proof.Machine

open Sys2Proof.Safety

/-! ## Where a fatal error is raised -/

/-- The condition under which a cycle of a running core raises a fatal error, as the rule of that error says it (R181 to R183). -/
def RaisedAt (u : State) : FatalKind → Prop
  | .unsupportedOpcode =>
    decodeWord (u.fetch16 u.pc) = .error (.unassigned (u.fetch16 u.pc)) ∨
      ∃ nnn : Addr12, decodeWord (u.fetch16 u.pc) = .ok (.sys nnn)
  | .stackOverflow => u.sp.val = 16 ∧ ∃ nnn : Addr12, decodeWord (u.fetch16 u.pc) = .ok (.call nnn)
  | .stackUnderflow => u.sp.val = 0 ∧ decodeWord (u.fetch16 u.pc) = .ok .ret

theorem FatalKind.code_inj {k k' : FatalKind} : k.code = k'.code ↔ k = k' := by cases k <;> cases k' <;> decide

/-- The error an execution raises is the one that its rule names for the fetched word. -/
theorem raisedAt_of_fatalOf {u : State} {i : Instr} {k : FatalKind} (hfetch : u.fetchDecode = .ok i) (h : fatalOf i u k) :
    RaisedAt u k := by
  obtain ⟨rfl, nnn, rfl⟩ | ⟨rfl, hsp, nnn, rfl⟩ | ⟨rfl, hsp, rfl⟩ := h
  · exact .inr ⟨nnn, hfetch⟩
  · exact ⟨hsp, nnn, hfetch⟩
  · exact ⟨hsp, hfetch⟩

/-- A cycle whose execution enters the fatal state, with the fetched word in the record (R76, R184). -/
theorem cycle_of_exec_fatal {u : State} {i : Instr} {k : FatalKind} (hrun : Running u) (hfetch : u.fetchDecode = .ok i)
    (hexec : exec i u = .next (u.raiseFatal k (encodeWord i))) :
    u.cycle = .next (u.raiseFatal k (u.fetch16 u.pc)).endCycle := by
  rw [cycle_ok hrun hfetch, hexec, encodeWord_of_decodeWord hfetch]
  rfl

/-- Where the condition of an error holds, a running core raises that error. -/
theorem cycle_of_raisedAt {u : State} {k : FatalKind} (hrun : Running u) (h : RaisedAt u k) :
    u.cycle = .next (u.raiseFatal k (u.fetch16 u.pc)).endCycle := by
  cases k with
  | unsupportedOpcode =>
    obtain hunassigned | ⟨nnn, hsys⟩ := h
    · exact cycle_error hrun hunassigned
    · exact cycle_of_exec_fatal hrun hsys (exec_sys nnn u)
  | stackOverflow =>
    obtain ⟨hfull, nnn, hcall⟩ := h
    exact cycle_of_exec_fatal hrun hcall (exec_call_full nnn hfull)
  | stackUnderflow =>
    obtain ⟨hempty, hret⟩ := h
    exact cycle_of_exec_fatal hrun hret (exec_ret_empty hempty)

/-- A running core that a cycle leaves halted has raised an error whose condition held (R186). -/
theorem raisedAt_of_cycle_halts {u t : State} (hrun : Running u) (hcycle : u.cycle = .next t) (ht : t.halted = true) :
    ∃ k, RaisedAt u k ∧ t = (u.raiseFatal k (u.fetch16 u.pc)).endCycle := by
  obtain ⟨hhalted, _⟩ | ⟨i, r, _, hfetch, hexec, rfl⟩ | ⟨w, _, hfetch, rfl⟩ := cycle_cases hcycle
  · cases hrun.symm.trans hhalted
  · rw [endCycle_halted] at ht
    obtain ⟨_, ⟨hlatch, _⟩, _⟩ | ⟨_, _, rfl⟩ | ⟨k, hk, rfl⟩ := exec_cases hexec
    · cases hrun.symm.trans (hlatch.symm.trans ht)
    · cases hrun.symm.trans ht
    · exact ⟨k, raisedAt_of_fatalOf hfetch hk, by rw [encodeWord_of_decodeWord (w := u.fetch16 u.pc) hfetch]⟩
  · obtain rfl : w = u.fetch16 u.pc := eq_of_decodeWord_unassigned hfetch
    exact ⟨.unsupportedOpcode, .inl hfetch, rfl⟩

/-- A cycle of a running core leaves it halted with the code of an error exactly where the condition of that error holds. -/
theorem halts_with_code_iff {u t : State} (hrun : Running u) (hcycle : u.cycle = .next t) (k : FatalKind) :
    t.halted = true ∧ t.faultKind = k.code ↔ RaisedAt u k := by
  constructor
  · rintro ⟨hhalted, hcode⟩
    obtain ⟨k', hk', rfl⟩ := raisedAt_of_cycle_halts hrun hcycle hhalted
    rw [endCycle_faultKind, raiseFatal_faultKind, FatalKind.code_inj] at hcode
    exact hcode ▸ hk'
  · intro hk
    obtain rfl := Host.Outcome.next.inj (hcycle.symm.trans (cycle_of_raisedAt hrun hk))
    exact ⟨endCycle_halted _, endCycle_faultKind _⟩

/-- Settles O15: each code by `halts_with_code_iff`, the record by what entry into the fatal state writes. -/
theorem fatalErrorsExactlyWhereTheRulesSay : Obligations.FatalErrorsExactlyWhereTheRulesSay := by
  intro s u hu hrun
  obtain ⟨t, hcycle⟩ := cycle_next u
  have hiff := halts_with_code_iff hrun hcycle
  refine ⟨t, (step_of_aboutToCycle hu).trans hcycle, hiff .unsupportedOpcode, hiff .stackOverflow, hiff .stackUnderflow,
    fun hhalted => ?_⟩
  obtain ⟨k, _, ht⟩ := raisedAt_of_cycle_halts hrun hcycle hhalted
  obtain ⟨_, _, hpc, hopcode, hkind, _⟩ := raiseFatal_endCycle rfl ht
  exact ⟨hkind, hopcode, hpc⟩

/-! ## The halt -/

theorem sameFaultRecord_trans {s u t : State} (hsu : SameFaultRecord s u) (hut : SameFaultRecord u t) : SameFaultRecord s t := by
  obtain ⟨hhalted, hkind, hopcode, hpc⟩ := hsu
  obtain ⟨hhalted', hkind', hopcode', hpc'⟩ := hut
  exact ⟨hhalted'.trans hhalted, hkind'.trans hkind, hopcode'.trans hopcode, hpc'.trans hpc⟩

/-- The state a cycle runs in has the latch and the record of the state before the step. -/
theorem sameFaultRecord_of_aboutToCycle {s u : State} (h : AboutToCycle s u) : SameFaultRecord s u := by
  obtain ⟨_, rfl⟩ | ⟨_, _, _, _, rfl⟩ := h <;> exact ⟨rfl, rfl, rfl, rfl⟩

/-- A cycle of a halted core reports FATAL and changes nothing of the core (R187). -/
theorem cycle_of_faulted {u t : State} (h : Faulted u) (hcycle : u.cycle = .next t) : t.status = some .fatal ∧ SameCore u t := by
  obtain rfl := Host.Outcome.next.inj ((cycle_halted h).symm.trans hcycle)
  have hcore : SameCore u u.haltedCycle.endCycle := (sameCore_endCycle (by simp [State.haltedCycle])).1
  exact ⟨endCycle_status _, hcore⟩

/-- A step of a halted core with a cycle in front. -/
theorem step_of_faulted {s t u : State} (hs : Faulted s) (h : step s = .next t) (hu : AboutToCycle s u) :
    t.status = some .fatal ∧ SameCore u t :=
  cycle_of_faulted ((sameFaultRecord_of_aboutToCycle hu).1.trans hs) ((step_of_aboutToCycle hu).symm.trans h)

/-- Settles O16, over the cases of a step: a cycle by `step_of_faulted`; of the moves between cycles only reset writes the latch or
the record. -/
theorem onlyResetEndsTheHalt : Obligations.OnlyResetEndsTheHalt := by
  intro s t hs h
  refine ⟨?_, fun _ => step_of_faulted hs h⟩
  obtain ⟨u, hu, _⟩ | ⟨keys, rest, _, rfl⟩ | ⟨rest, _, rfl⟩ | ⟨rest, hreset, _⟩ | ⟨rom, rest, _, _, _, rfl⟩ := step_cases h
  · obtain ⟨_, _, hrecord⟩ := step_of_faulted hs h hu
    exact .inr (sameFaultRecord_trans (sameFaultRecord_of_aboutToCycle hu) hrecord)
  · exact .inr ⟨rfl, rfl, rfl, rfl⟩
  · exact .inr ⟨rfl, rfl, rfl, rfl⟩
  · exact .inl ⟨rest, hreset⟩
  · exact .inr (by simp [SameFaultRecord])

end Sys2Proof.Machine
end

section
/-! O52, O54 and O55: the launch state, and the loads that the loader never makes (spec/70_reset_and_hazards.md R210 to R214). -/

namespace Sys2Proof.Machine

open Sys2Proof.Safety

/-! ## The launch state -/

@[simp] theorem launch_pc (font : Config.Font) (rom : List Byte) : (launch font rom).pc = 0x0200#16 := writeBytes_pc _ _ _

@[simp] theorem launch_font (font : Config.Font) (rom : List Byte) : (launch font rom).font = font := writeBytes_font _ _ _

/-- The image stands in memory at launch: reset memory is canonical (R213). -/
theorem programPresent_launch (font : Config.Font) {rom : List Byte} (h : rom.length ≤ Config.maxRom) :
    ProgramPresent rom (launch font rom) := programPresent_writeBytes (State.resetWith_mem_wf font) h

/-- An image that fits ends below the wrap of memory, so it does not reach the font table (R32, R43). -/
theorem fontIntact_launch (font : Config.Font) {rom : List Byte} (h : rom.length ≤ Config.maxRom) :
    FontIntact (launch font rom) := by
  intro a ha
  have hout (k : Nat) (hk : k < rom.length) : a % Config.memSize ≠ (Config.entry + k) % Config.memSize := by
    simp only [Config.memSize, Config.entry, Config.maxRom] at *
    omega
  have hread : (launch font rom).memRead a = (State.resetWith font).memRead a := sameMemBut_writeBytes _ _ rom a hout
  simp only [hread, launch_font, memRead_resetWith_font font ha]

/-- Settles O54: the launch state is one `State.writeBytes` on the reset state, so its frame is that of a stored block, and the
invariant is what a load keeps. -/
theorem launchIsResetWithTheImage : Obligations.LaunchIsResetWithTheImage := by
  intro font rom hlen
  have hpc : PcInvariant (launch font rom) := by
    rw [PcInvariant, launch_pc]
    decide
  exact ⟨programPresent_launch font hlen, sameMemBut_writeBytes _ _ rom, frameBut_writeBytes _ _ rom, launch_pc font rom,
    launch_font font rom, writeBytes_halted _ _ rom, hpc, fontIntact_launch font hlen,
    congrArg Fin.val (writeBytes_sp (State.resetWith font) Config.entry rom), load_keeps_inv (inv_resetWith font) rfl _ rom⟩

/-- Settles O55: bytes 0 and 1 of the image are the two that the fetch at the entry address reads. -/
theorem launchFetchesTheFirstTwoBytes : Obligations.LaunchFetchesTheFirstTwoBytes := by
  intro font hi lo rest hlen
  have hpresent := programPresent_launch font (rom := hi :: lo :: rest) (Nat.add_le_add_right hlen 2)
  have hhi := hpresent 0 (by simp)
  have hlo := hpresent 1 (by simp)
  refine ⟨?_, launch_pc font _⟩
  rw [launch_pc]
  exact congrArg₂ wordOfBytes hhi hlo

/-! ## The loads that stop -/

/-- A load once a cycle has been invoked (log entry 5). -/
theorem applyLoad_after_first_cycle {s : State} (hs : s.status ≠ none) (rom : List Byte) :
    s.applyLoad rom = .fault .loadAfterFirstCycle := if_pos hs

/-- A load before the first cycle of an image that does not fit (log entry 5). -/
theorem applyLoad_of_too_long {s : State} {rom : List Byte} (hs : s.status = none) (h : Config.maxRom < rom.length) :
    s.applyLoad rom = .refused .romTooLong := by
  rw [State.applyLoad, if_neg (not_not.mpr hs), if_pos h]

/-- Settles O52: the step makes the load, which stops by the one or the other. -/
theorem loadsOutsideTheContractStop : Obligations.LoadsOutsideTheContractStop :=
  fun s rom rest h =>
    ⟨fun hafter => (step_of_host h).trans (applyLoad_after_first_cycle (s := s.setHost rest) hafter rom),
      fun hfirst hlong => (step_of_host h).trans (applyLoad_of_too_long (s := s.setHost rest) hfirst hlong)⟩

end Sys2Proof.Machine
end
